-- ==== Sys2Proof/Word.lean ====
section
/-! DEFINITION. The word types of the core: bytes, the 9-bit program counter, register indices
(`00_scope.md` R5, R7; `10_state.md` R11, R15). -/

namespace Sys2Proof

/-- A memory cell, a register, an opcode or operand byte, a data address (R5 `XLEN`, `ALEN`). -/
abbrev Byte := BitVec 8

/-- The program counter (R15: 9 bits, so that 0x100 exists). -/
abbrev PcWord := BitVec 9

/-- A register index 0 to 7 (R11). -/
abbrev RegIndex := Fin 8

end Sys2Proof
end

