-- ==== Sys2Proof/Config.lean ====
section
/-! DEFINITION. The free values: what the spec lets take any value. None has a body, so nothing can be
proved about the value of one. Each is applied to the counter `draws` of State. -/

namespace Sys2Proof.Config

/-- The timer pin `tmr` of an iteration for which no input sample is lined up (`60_exceptions.md` R151:
"each iteration's value is a free input"). Log 4. -/
opaque tmrSample : Nat → Bool

/-- Register contents after a fault (`60_exceptions.md` R144: "as holding any value"). Log 5. -/
opaque regAfterFault : Nat → RegIndex → Byte

/-- The flags register after a fault (R144). Log 5. -/
opaque flAfterFault : Nat → Byte

/-- The program counter after a fault (R144), any of the values 0x000 to 0x100 that R15 allows. Log 5. -/
opaque pcAfterFault : Nat → Fin 257

/-- The memory cell at an address after a fault (R144). Log 5. -/
opaque cellAfterFault : Nat → Nat → Byte

/-- The pin `out_kind` while `out_valid` is 0 (`00_scope.md` R6 gives it no value then). Log 25. -/
opaque idleOutKind : Nat → BitVec 1

/-- The pin `out_data` while `out_valid` is 0 (R6). Log 25. -/
opaque idleOutData : Nat → Byte

end Sys2Proof.Config
end

