-- ==== Sys2Proof/Syntax.lean ====
section
/-! DEFINITION. The instructions, one constructor per row of `spec/opcode_table.json`, in the table's
order (`30_encoding.md` R64). An operand is the raw operand byte of R62; which bytes are legal is
`Instr.wf` of WellFormed.lean (R63, R84). -/

namespace Sys2Proof

/-- `a` is the first operand byte, `b` the second (R62). Every operand is a register index but `imm`. -/
inductive Instr where
  | hlt
  | ldi (a imm : Byte)
  | prn (a : Byte)
  | pra (a : Byte)
  | add (a b : Byte)
  | mul (a b : Byte)
  | cmp (a b : Byte)
  | and (a b : Byte)
  | or (a b : Byte)
  | xor (a b : Byte)
  | not (a : Byte)
  | shl (a b : Byte)
  | shr (a b : Byte)
  | mod (a b : Byte)
  | inc (a : Byte)
  | dec (a : Byte)
  | push (a : Byte)
  | pop (a : Byte)
  | call (a : Byte)
  | ret
  | st (a b : Byte)
  | jmp (a : Byte)
  | jeq (a : Byte)
  | jne (a : Byte)
  deriving DecidableEq, Repr

end Sys2Proof
end

