-- ==== Sys2Proof/WellFormed.lean ====
section
/-! DEFINITION. Which instructions and which values of the parameter `HLT_ENC` are legal. -/

namespace Sys2Proof

/-- A byte that is a legal register operand: 0 to 7, the whole byte, not masked (`30_encoding.md` R63). -/
abbrev isRegByte (a : Byte) : Bool := a.toNat < 8

/-- Every operand in a reg position is at most 7 (`40_dispatcher.md` R84). LDI's second operand is an imm
and is not checked. -/
def Instr.wf : Instr → Bool
  | .hlt | .ret => true
  | .ldi a _ => isRegByte a
  | .prn a | .pra a | .not a | .inc a | .dec a => isRegByte a
  | .push a | .pop a | .call a => isRegByte a
  | .jmp a | .jeq a | .jne a => isRegByte a
  | .add a b | .mul a b | .cmp a b => isRegByte a && isRegByte b
  | .and a b | .or a b | .xor a b => isRegByte a && isRegByte b
  | .shl a b | .shr a b | .mod a b | .st a b => isRegByte a && isRegByte b

/-- The constraints on the parameter `HLT_ENC` (`30_encoding.md` R65 (a), (b)): operand count 0, and not
the byte of RET. -/
abbrev HltEncOk (h : Byte) : Prop := h >>> 6 = 0 ∧ h ≠ 0x11

end Sys2Proof
end

