-- ==== Sys2Proof/Decode.lean ====
section
/-! DEFINITION. The decoder, total on any list of bytes, and the encoder, both from the table of
`30_encoding.md` R64; the parameter `HLT_ENC` is their argument `h` (R65). -/

namespace Sys2Proof

/-- The default of `HLT_ENC`. PRESUMED: R65 takes 0x01 from general knowledge, not from the source (log 1). -/
def hltEncDefault : Byte := 0x01

/-- Bits 7:6 of an opcode byte, the operand count (R61). -/
def operandCount (ir : Byte) : Nat := (ir >>> 6).toNat

/-- Bit 4 of an opcode byte, the direct-PC-set flag (R61). -/
def directPcSet (ir : Byte) : Bool := ir.getLsbD 4

/-- Why bytes give no instruction. `truncated`: there are fewer bytes than the opcode announces (at the
top of memory this is FETCH_RANGE, `40_dispatcher.md` R82). `illegalOpcode`: the opcode byte is not in the
table (R66). -/
inductive DecodeReject where
  | truncated
  | illegalOpcode
  deriving DecidableEq, Repr

/-- The instruction an opcode byte selects, with the operand bytes it was fetched with (R64, R68). -/
def decodeOpcode (h ir a b : Byte) : Option Instr :=
  if ir = h then some .hlt
  else if ir = 0x82 then some (.ldi a b)
  else if ir = 0x47 then some (.prn a)
  else if ir = 0x48 then some (.pra a)
  else if ir = 0xA0 then some (.add a b)
  else if ir = 0xA2 then some (.mul a b)
  else if ir = 0xA7 then some (.cmp a b)
  else if ir = 0xA8 then some (.and a b)
  else if ir = 0xAA then some (.or a b)
  else if ir = 0xAB then some (.xor a b)
  else if ir = 0x69 then some (.not a)
  else if ir = 0xAC then some (.shl a b)
  else if ir = 0xAD then some (.shr a b)
  else if ir = 0xA4 then some (.mod a b)
  else if ir = 0x65 then some (.inc a)
  else if ir = 0x66 then some (.dec a)
  else if ir = 0x45 then some (.push a)
  else if ir = 0x46 then some (.pop a)
  else if ir = 0x50 then some (.call a)
  else if ir = 0x11 then some .ret
  else if ir = 0x84 then some (.st a b)
  else if ir = 0x54 then some (.jmp a)
  else if ir = 0x55 then some (.jeq a)
  else if ir = 0x56 then some (.jne a)
  else none

/-- The operand bytes an operand count announces, and the bytes after them; `none` when there are too
few (R62). An operand that is not announced reads as 0x00 here and is used by no instruction of that
count. -/
def takeOperands : Nat → List Byte → Option (Byte × Byte × List Byte)
  | 0, rest => some (0, 0, rest)
  | 1, a :: rest => some (a, 0, rest)
  | 2, a :: b :: rest => some (a, b, rest)
  | _, _ => none

/-- Decoding in the order of `40_dispatcher.md` R82, R83: count 3 is illegal before any operand is
fetched; then the operands; then the table. Gives the instruction and the bytes after it. -/
def decodeWith (h : Byte) : List Byte → Except DecodeReject (Instr × List Byte)
  | [] => .error .truncated
  | ir :: rest =>
    if operandCount ir = 3 then .error .illegalOpcode
    else
      match takeOperands (operandCount ir) rest with
      | none => .error .truncated
      | some (a, b, rest') =>
        match decodeOpcode h ir a b with
        | none => .error .illegalOpcode
        | some i => .ok (i, rest')

/-- The decoder with the default `HLT_ENC`. -/
def decode (bytes : List Byte) : Except DecodeReject (Instr × List Byte) := decodeWith hltEncDefault bytes

/-- The bytes of an instruction, opcode first (R60, R64). -/
def encodeWith (h : Byte) : Instr → List Byte
  | .hlt => [h]
  | .ldi a imm => [0x82, a, imm]
  | .prn a => [0x47, a]
  | .pra a => [0x48, a]
  | .add a b => [0xA0, a, b]
  | .mul a b => [0xA2, a, b]
  | .cmp a b => [0xA7, a, b]
  | .and a b => [0xA8, a, b]
  | .or a b => [0xAA, a, b]
  | .xor a b => [0xAB, a, b]
  | .not a => [0x69, a]
  | .shl a b => [0xAC, a, b]
  | .shr a b => [0xAD, a, b]
  | .mod a b => [0xA4, a, b]
  | .inc a => [0x65, a]
  | .dec a => [0x66, a]
  | .push a => [0x45, a]
  | .pop a => [0x46, a]
  | .call a => [0x50, a]
  | .ret => [0x11]
  | .st a b => [0x84, a, b]
  | .jmp a => [0x54, a]
  | .jeq a => [0x55, a]
  | .jne a => [0x56, a]

/-- The encoder with the default `HLT_ENC`. -/
def encode (i : Instr) : List Byte := encodeWith hltEncDefault i

/-- The three bytes, lowest address first, of an instruction whose first `nbits` bits are `w` and whose
other bits are 0 (three bytes is the longest instruction, R60). -/
def tableWordBytes (nbits w : Nat) : List Byte :=
  let v := w % 2 ^ nbits
  [BitVec.ofNat 8 v, BitVec.ofNat 8 (v / 256), BitVec.ofNat 8 (v / 65536)]

/-- The instruction the decoder reads from a row of `spec/opcode_table.json`. -/
def decodeTableWord (nbits w : Nat) : Option Instr :=
  match decode (tableWordBytes nbits w) with
  | .ok (i, _) => some i
  | .error _ => none

end Sys2Proof
end

