-- ==== Sys2Proof/Machine/State.lean ====
section
/-! DEFINITION. The state of the core (`10_state.md` R10), the model's own fields beside it, the reasons
of a step, and the state after reset (R30). -/

namespace Sys2Proof.Machine

/-- The 256 memory cells (R23) as a list of (address, byte), addresses strictly rising, a cell that holds
the reset byte not listed (`Memory.wf` of Ops.lean). -/
abbrev Memory := List Host.Cell

/-- The run state (R27). -/
inductive RunState where
  /-- After reset: the host may write memory, no iteration happens. -/
  | loading
  /-- Iterations happen. -/
  | running
  /-- HLT was executed. -/
  | halted
  /-- An iteration began with `pc` above 0xFF (`40_dispatcher.md` R81). -/
  | pcPastEnd
  /-- A fatal condition occurred (`60_exceptions.md` R140). -/
  | fault
  deriving DecidableEq, Repr

/-- The fault codes, in the order of their numbers 0 to 7 (`60_exceptions.md` R141). -/
inductive FaultCode where
  /-- 0: the value when `run` is not FAULT. -/
  | none
  /-- 1: MOD with a divisor register that holds 0. -/
  | divZero
  /-- 2: an operand byte above address 0xFF. -/
  | fetchRange
  /-- 3: a reg operand byte above 7. -/
  | regRange
  /-- 4: a push with SP = 0x00 or a pop with SP = 0xFF. -/
  | stackRange
  /-- 5: CALL with a return address above 0xFF. -/
  | retaddrRange
  /-- 6: an opcode byte outside the table. -/
  | illegalOpcode
  /-- 7: never raised (`41_alu.md` R115). -/
  | aluUnsupported
  deriving DecidableEq, Repr

/-- The kind of an output event: PRN or PRA (R28; its encoding on the pin `out_kind` is `OutKind.bit`). -/
inductive OutKind where
  | prn
  | pra
  deriving DecidableEq, Repr

/-- One output event (R28). -/
structure OutEvent where
  kind : OutKind
  value : Byte
  deriving DecidableEq, Repr

/-- One sample of the input pins (`00_scope.md` R6). -/
structure Pins where
  rst : Bool
  loadWe : Bool
  loadAddr : Byte
  loadData : Byte
  start : Bool
  tmr : Bool
  deriving DecidableEq, Repr

/-- The state of the machine. The first nine fields are the spec's (R10, R28); `inputs`, `draws` and
`hltEnc` are the model's own (logs 1, 2, 4). -/
structure State where
  /-- `x[0]` to `x[7]`; R5 is IM, R6 is IS, R7 is SP (R11, R12). -/
  regs : Vector Byte 8
  /-- The program counter (R15). -/
  pc : PcWord
  /-- The flags register: E bit 7, G bit 6, L bit 5 (R18). -/
  fl : Byte
  /-- The memory (R23). -/
  mem : Memory
  /-- The run state (R27). -/
  run : RunState
  /-- The fault record (R32). -/
  faultCode : FaultCode
  faultPc : PcWord
  /-- The output stream, oldest event first (R28). -/
  output : List OutEvent
  /-- The samples of the input pins that are lined up, the next one first. -/
  inputs : List Pins
  /-- Steps taken: the argument of the free values of Config. -/
  draws : Nat
  /-- The parameter `HLT_ENC` (`30_encoding.md` R65); no step writes it. -/
  hltEnc : Byte
  deriving DecidableEq, Repr

/-- The reasons for which a step would stop with no next state. NO STEP OF THIS MODEL DOES: a fatal
condition of the spec is a next state with `run` = FAULT (R140; log 6). -/
inductive Fault where
  /-- The source's "Unsupported ALU operation". Raised by nothing: R115 shows that the path cannot be
  reached by any memory contents. Safe. -/
  | aluUnsupported
  deriving DecidableEq, Repr

/-- The reasons for which an instruction has no meaning. -/
inductive Refusal where
  /-- An instruction with no meaning yet, by its mnemonic; raised only in an arm of Dispatch.lean. Every
  instruction has its meaning, so nothing raises it. Safe. -/
  | notModelled (mnemonic : String)
  deriving DecidableEq, Repr

/-- What one step answers. -/
abbrev StepResult := Host.Outcome State Fault Refusal

/-- The state after reset (R30, `70_reset_and_hazards.md` R170). R0 to R6 and `fl` are the spec's
decision D12 (log 7); `inputs`, `draws` and `hltEnc` are the model's own (logs 1, 2, 4). -/
def State.reset : State where
  regs := #v[0x00, 0x00, 0x00, 0x00, 0x00, 0x00, 0x00, 0xF4]
  pc := 0x000
  fl := 0x00
  mem := []
  run := .loading
  faultCode := .none
  faultPc := 0x000
  output := []
  inputs := []
  draws := 0
  hltEnc := hltEncDefault

end Sys2Proof.Machine
end

