-- ==== Sys2Proof/Machine/Ops.lean ====
section
/-! DEFINITION. The named operations over memory, registers, stack and run state. -/

namespace Sys2Proof.Machine

/-! ## Memory -/

/-- What an unlisted cell reads as: memory is "zero-initialized" (`10_state.md` R23). -/
def unlistedByte : Byte := 0x00

/-- `MemRead(addr, 1)` (`20_memory.md` R41). The address is a byte, so it is never out of range (R47). -/
def Memory.read (m : Memory) (a : Byte) : Byte := (m.lookup a.toNat).getD unlistedByte

/-- Insert a cell at its place in the order of addresses. -/
def insertCell (c : Host.Cell) : Memory → Memory
  | [] => [c]
  | d :: rest => if c.1 < d.1 then c :: d :: rest else d :: insertCell c rest

/-- `MemWrite(addr, 1, v)` (R41), in canonical form. -/
def Memory.write (m : Memory) (a v : Byte) : Memory :=
  let others := m.filter fun c => c.1 != a.toNat
  if v = unlistedByte then others else insertCell (a.toNat, v) others

/-- The memory whose cell at address `n` holds `f n`. -/
def Memory.ofFn (f : Nat → Byte) : Memory :=
  (List.range 256).filterMap fun n => if f n = unlistedByte then none else some (n, f n)

/-- The canonical form: addresses strictly rising and inside the 256 cells, no cell listed that holds
what an unlisted cell reads as. -/
abbrev Memory.wf (m : Memory) : Prop :=
  m.Pairwise (fun c d => c.1 < d.1) ∧ ∀ c ∈ m, c.1 < 256 ∧ c.2 ≠ unlistedByte

/-! ## Registers, program counter, flags, output -/

/-- `u8(n)`: `n mod 256` for any integer (`00_scope.md` R8). -/
def u8 (n : Int) : Byte := BitVec.ofInt 8 n

/-- `zext_9(v)` (R8). -/
def zext9 (v : Byte) : PcWord := v.setWidth 9

/-- `u8(pc)`, the byte of a program counter value (`60_exceptions.md` R154). -/
def pcByte (p : PcWord) : Byte := p.setWidth 8

/-- `x[r]`. -/
def State.reg (s : State) (r : RegIndex) : Byte := s.regs[r]

/-- `x[r] <- v`. No register is hardwired or read-only (`10_state.md` R14). -/
def State.setReg (s : State) (r : RegIndex) (v : Byte) : State := { s with regs := s.regs.set r v }

/-- IM, the interrupt mask (`10_state.md` R20). -/
def State.im (s : State) : Byte := s.reg 5

/-- IS, the interrupt status (R21). -/
def State.is (s : State) : Byte := s.reg 6

/-- SP, the stack pointer (R22). -/
def State.sp (s : State) : Byte := s.reg 7

/-- `pc <- p`. -/
def State.setPc (s : State) (p : PcWord) : State := { s with pc := p }

/-- The default advance `pc <- pc + 1 + n`, a 9-bit sum (`40_dispatcher.md` R85). -/
def State.advance (s : State) (n : Nat) : State := { s with pc := s.pc + 1 + BitVec.ofNat 9 n }

/-- `fl <- v`. -/
def State.setFl (s : State) (v : Byte) : State := { s with fl := v }

/-- `MemWrite` on the state's memory. -/
def State.writeMem (s : State) (a v : Byte) : State := { s with mem := s.mem.write a v }

/-- `Output(kind, v)`: append one event (`10_state.md` R28). -/
def State.emit (s : State) (k : OutKind) (v : Byte) : State := { s with output := s.output ++ [⟨k, v⟩] }

/-- `run <- r`. -/
def State.setRun (s : State) (r : RunState) : State := { s with run := r }

/-! ## Faults -/

/-- The number of a fault code, the 3-bit pin `fault_code` (`60_exceptions.md` R141). -/
def FaultCode.bits : FaultCode → BitVec 3
  | .none => 0
  | .divZero => 1
  | .fetchRange => 2
  | .regRange => 3
  | .stackRange => 4
  | .retaddrRange => 5
  | .illegalOpcode => 6
  | .aluUnsupported => 7

/-- `raise Fault(code)` (R140, R142): `run` is FAULT, the record holds the code and the value `pc` has,
which is the address of the opcode byte, or the `pc` at the poll. The output stream stays. Registers,
`fl`, `pc` and memory hold any value from here on (R144; log 5). -/
def State.raiseFault (s : State) (c : FaultCode) : State :=
  { s with
    regs := Vector.ofFn (Config.regAfterFault s.draws)
    pc := BitVec.ofFin ((Config.pcAfterFault s.draws).castLE (by decide))
    fl := Config.flAfterFault s.draws
    mem := Memory.ofFn (Config.cellAfterFault s.draws)
    run := .fault
    faultCode := c
    faultPc := s.pc }

/-- The 1-bit pin `out_kind` of an event (`00_scope.md` R6). -/
def OutKind.bit : OutKind → BitVec 1
  | .prn => 0
  | .pra => 1

/-- A computation that gives the state it leads to or the fault it raises. -/
abbrev Effect := Except FaultCode State

/-- Do one effect and then another: statements of a pseudocode block execute in the order written
(`00_scope.md` R8). -/
def Effect.andThen (e : Effect) (k : State → Effect) : Effect :=
  match e with
  | .ok s => k s
  | .error c => .error c

/-- End an instruction that began in `s`: in the state it leads to, or in the fault it raises with the
record taken from `s` (R142). -/
def settle (s : State) : Effect → StepResult
  | .ok t => .next t
  | .error c => .next (s.raiseFault c)

/-! ## The stack (`42_stack_call.md` R120, R121) -/

/-- The push of R120 and R122: SP is decremented, then the byte `v` reads from the state is written at
the new SP. With SP = 0x00 it faults and does not wrap. -/
def pushWith (v : State → Byte) (s : State) : Effect :=
  if s.sp = 0x00 then .error .stackRange
  else
    let s1 := s.setReg 7 (s.sp - 1)
    .ok (s1.writeMem s1.sp (v s1))

/-- `StackPush(v)` for a byte already computed (R120). -/
def push (v : Byte) (s : State) : Effect := pushWith (fun _ => v) s

/-- Push a list of bytes, the first one first. -/
def pushAll : List Byte → State → Effect
  | [], s => .ok s
  | v :: rest, s => (push v s).andThen (pushAll rest)

/-- The second half of a pop (R121, R123): SP is incremented; with SP = 0xFF it faults and does not wrap. -/
def stepSpUp (s : State) : Effect :=
  if s.sp = 0xFF then .error .stackRange else .ok (s.setReg 7 (s.sp + 1))

/-- `StackPop()`: the byte at SP is given to `k`, which sees SP incremented (R121). -/
def popThen (k : Byte → State → Effect) (s : State) : Effect :=
  (stepSpUp s).andThen (k (s.mem.read s.sp))

/-! ## Input pins -/

/-- The pins when the host does nothing (`20_memory.md` R55). -/
def quietPins (tmr : Bool) : Pins := ⟨false, false, 0x00, 0x00, false, tmr⟩

/-- The pins this step samples: the next sample lined up, else a quiet host and a free `tmr` (logs 2, 4). -/
def State.pins (s : State) : Pins :=
  match s.inputs with
  | p :: _ => p
  | [] => quietPins (Config.tmrSample s.draws)

/-- The state once a step has sampled the pins. -/
def State.consume (s : State) : State := { s with inputs := s.inputs.tail, draws := s.draws + 1 }

/-- `rst`: every piece of the spec's state at its reset value (`70_reset_and_hazards.md` R170). The
inputs still lined up, the count of steps and the parameter `HLT_ENC` are not state of the core and stay
(log 9). -/
def State.afterRst (s : State) : State :=
  { State.reset with inputs := s.inputs, draws := s.draws, hltEnc := s.hltEnc }

end Sys2Proof.Machine
end

