-- ==== Sys2Proof/Machine/Flags.lean ====
section
/-! DEFINITION. The flags register (`10_state.md` R18, R19) and the only computation that writes it, the
comparison of CMP (`41_alu.md` R103). -/

namespace Sys2Proof.Machine

/-- L, bit 5: set by a CMP whose first operand was less. -/
def flagL : Byte := 0x20

/-- G, bit 6: set by a CMP whose first operand was greater. -/
def flagG : Byte := 0x40

/-- E, bit 7: set by a CMP whose operands were equal. -/
def flagE : Byte := 0x80

/-- The bit a comparison of two unsigned bytes sets (R103). -/
def compareFlag (v w : Byte) : Byte :=
  if v = w then flagE else if v.toNat < w.toNat then flagL else flagG

/-- The flags after a comparison: one bit is set, the others stay as they were (R103; log 19). -/
def compareFlags (fl v w : Byte) : Byte := fl ||| compareFlag v w

/-- "E set", the condition of JEQ (`43_jumps.md` R131). -/
def equalSet (fl : Byte) : Bool := fl.getLsbD 7

end Sys2Proof.Machine
end

