-- ==== Sys2Proof/Machine/Operands.lean ====
section
/-! DEFINITION. The operand forms (`30_encoding.md` R63): a reg operand is a whole byte that must be at
most 7, checked for `a` first and then `b`, before the instruction reads or writes anything
(`40_dispatcher.md` R84). An imm operand is used as it stands. -/

namespace Sys2Proof.Machine

/-- The register an operand byte names, if it is 0 to 7. -/
def regOf (a : Byte) : Option RegIndex := if h : a.toNat < 8 then some ⟨a.toNat, h⟩ else none

/-- The operand byte that names a register. -/
def regByte (r : RegIndex) : Byte := BitVec.ofNat 8 r.val

/-- An instruction with one reg operand. -/
def withReg (a : Byte) (k : RegIndex → Effect) : Effect :=
  match regOf a with
  | some r => k r
  | none => .error .regRange

/-- An instruction with two reg operands. -/
def withRegs (a b : Byte) (k : RegIndex → RegIndex → Effect) : Effect :=
  withReg a fun ra => withReg b fun rb => k ra rb

end Sys2Proof.Machine
end

