-- ==== Sys2Proof/Machine/Alu.lean ====
section
/-! DEFINITION. The twelve ALU instructions (`41_alu.md`). Each result is the exact mathematical one on
the unsigned values, reduced by `u8` (R113). -/

namespace Sys2Proof.Machine

/-! ## The results -/

/-- R101. -/
def aluAdd (v w : Byte) : Byte := u8 ((v.toNat : Int) + w.toNat)

/-- R102. -/
def aluMul (v w : Byte) : Byte := u8 ((v.toNat : Int) * w.toNat)

/-- R104. -/
def aluAnd (v w : Byte) : Byte := v &&& w

/-- R105. -/
def aluOr (v w : Byte) : Byte := v ||| w

/-- R106. -/
def aluXor (v w : Byte) : Byte := v ^^^ w

/-- R107. -/
def aluNot (v : Byte) : Byte := v ^^^ 0xFF

/-- R108: the amount is the whole byte (log 15). -/
def aluShl (v w : Byte) : Byte := u8 ((v.toNat * 2 ^ w.toNat : Nat) : Int)

/-- R109: the amount is the whole byte (log 15). -/
def aluShr (v w : Byte) : Byte := u8 ((v.toNat / 2 ^ w.toNat : Nat) : Int)

/-- R110, for a divisor that is not 0. -/
def aluMod (v w : Byte) : Byte := u8 ((v.toNat % w.toNat : Nat) : Int)

/-- R111. -/
def aluInc (v : Byte) : Byte := u8 ((v.toNat : Int) + 1)

/-- R112. -/
def aluDec (v : Byte) : Byte := u8 ((v.toNat : Int) - 1)

/-! ## The shapes -/

/-- A two-operand instruction: both registers are read, then the first is written (R100, R114). -/
def aluBinary (f : Byte → Byte → Byte) (a b : Byte) (s : State) : StepResult :=
  settle s (withRegs a b fun ra rb => .ok ((s.setReg ra (f (s.reg ra) (s.reg rb))).advance 2))

/-- A one-operand instruction: the register is changed in place (R100). -/
def aluUnary (f : Byte → Byte) (a : Byte) (s : State) : StepResult :=
  settle s (withReg a fun r => .ok ((s.setReg r (f (s.reg r))).advance 1))

/-! ## The instructions -/

/-- ADD (R101). -/
def execAdd (a b : Byte) (s : State) : StepResult := aluBinary aluAdd a b s

/-- MUL (R102). -/
def execMul (a b : Byte) (s : State) : StepResult := aluBinary aluMul a b s

/-- AND (R104). -/
def execAnd (a b : Byte) (s : State) : StepResult := aluBinary aluAnd a b s

/-- OR (R105). -/
def execOr (a b : Byte) (s : State) : StepResult := aluBinary aluOr a b s

/-- XOR (R106). -/
def execXor (a b : Byte) (s : State) : StepResult := aluBinary aluXor a b s

/-- NOT (R107). -/
def execNot (a : Byte) (s : State) : StepResult := aluUnary aluNot a s

/-- SHL (R108). -/
def execShl (a b : Byte) (s : State) : StepResult := aluBinary aluShl a b s

/-- SHR (R109). -/
def execShr (a b : Byte) (s : State) : StepResult := aluBinary aluShr a b s

/-- INC (R111). -/
def execInc (a : Byte) (s : State) : StepResult := aluUnary aluInc a s

/-- DEC (R112). -/
def execDec (a : Byte) (s : State) : StepResult := aluUnary aluDec a s

/-- MOD (R110): the VALUE of the divisor register is tested, not its index. -/
def execMod (a b : Byte) (s : State) : StepResult :=
  settle s (withRegs a b fun ra rb =>
    if s.reg rb = 0x00 then .error .divZero
    else .ok ((s.setReg ra (aluMod (s.reg ra) (s.reg rb))).advance 2))

/-- CMP (R103): sets one flag and writes no register. -/
def execCmp (a b : Byte) (s : State) : StepResult :=
  settle s (withRegs a b fun ra rb =>
    .ok ((s.setFl (compareFlags s.fl (s.reg ra) (s.reg rb))).advance 2))

end Sys2Proof.Machine
end

