-- ==== Sys2Proof/Machine/Direct.lean ====
section
/-! DEFINITION. The instructions the Dispatcher executes itself: HLT, LDI, ST, PRN, PRA
(`40_dispatcher.md` R87 to R91). -/

namespace Sys2Proof.Machine

/-- HLT (R87): `run <- HALTED`, `pc` stays at the HLT byte. -/
def execHlt (s : State) : StepResult := .next (s.setRun .halted)

/-- LDI reg, imm (R88). -/
def execLdi (a imm : Byte) (s : State) : StepResult :=
  settle s (withReg a fun r => .ok ((s.setReg r imm).advance 2))

/-- ST regA, regB (R89): the address is in the first register, the data in the second. -/
def execSt (a b : Byte) (s : State) : StepResult :=
  settle s (withRegs a b fun ra rb => .ok ((s.writeMem (s.reg ra) (s.reg rb)).advance 2))

/-- PRN and PRA: one output event with the register's byte (R90, R91). -/
def printReg (k : OutKind) (a : Byte) (s : State) : StepResult :=
  settle s (withReg a fun r => .ok ((s.emit k (s.reg r)).advance 1))

/-- PRN reg (R90). -/
def execPrn (a : Byte) (s : State) : StepResult := printReg .prn a s

/-- PRA reg (R91). -/
def execPra (a : Byte) (s : State) : StepResult := printReg .pra a s

end Sys2Proof.Machine
end

