-- ==== Sys2Proof/Machine/Jumps.lean ====
section
/-! DEFINITION. JMP, JEQ, JNE (`43_jumps.md` R130 to R132). Each writes `pc` on every path. -/

namespace Sys2Proof.Machine

/-- Go to the address in a register if `taken`, else fall through to `pc + 2`. -/
def jumpIf (taken : Bool) (a : Byte) (s : State) : StepResult :=
  settle s (withReg a fun r => .ok (s.setPc (if taken then zext9 (s.reg r) else s.pc + 2)))

/-- JMP reg (R130). -/
def execJmp (a : Byte) (s : State) : StepResult := jumpIf true a s

/-- JEQ reg (R131). -/
def execJeq (a : Byte) (s : State) : StepResult := jumpIf (equalSet s.fl) a s

/-- JNE reg (R132). -/
def execJne (a : Byte) (s : State) : StepResult := jumpIf (!equalSet s.fl) a s

end Sys2Proof.Machine
end

