-- ==== Sys2Proof/Machine/Stack.lean ====
section
/-! DEFINITION. PUSH, POP, CALL, RET (`42_stack_call.md` R122 to R125; register 7 as operand: R127). -/

namespace Sys2Proof.Machine

/-- PUSH reg (R122): the register is read after SP is decremented. -/
def execPush (a : Byte) (s : State) : StepResult :=
  settle s (withReg a fun r => (pushWith (fun s1 => s1.reg r) s).andThen fun s2 => .ok (s2.advance 1))

/-- POP reg (R123): the register is written, then SP is read and incremented. -/
def execPop (a : Byte) (s : State) : StepResult :=
  settle s (withReg a fun r =>
    (stepSpUp (s.setReg r (s.mem.read s.sp))).andThen fun s2 => .ok (s2.advance 1))

/-- CALL reg (R124): a return address that is not a byte faults before the push; the target is read
after the push. -/
def execCall (a : Byte) (s : State) : StepResult :=
  settle s (withReg a fun r =>
    let ret := s.pc + 2
    if 0xFF < ret.toNat then .error .retaddrRange
    else (push (pcByte ret) s).andThen fun s2 => .ok (s2.setPc (zext9 (s2.reg r))))

/-- RET (R125). -/
def execRet (s : State) : StepResult :=
  settle s (popThen (fun v s2 => .ok (s2.setPc (zext9 v))) s)

end Sys2Proof.Machine
end

