-- ==== Sys2Proof/Machine/Interrupt.lean ====
section
/-! DEFINITION. The interrupt poll and interrupt entry (`60_exceptions.md` R150 to R157). There is no
return from interrupt (R158). -/

namespace Sys2Proof.Machine

/-- The timer sample (R151): bit 0 of IS is set when `tmr` is 1, whatever IM is. -/
def sampleTimer (tmr : Bool) (s : State) : State :=
  s.setReg 6 (if tmr then s.is ||| 0x01 else s.is)

/-- The interrupt lines in the order of the poll (R153). -/
def lineOrder : List RegIndex := [0, 1, 2, 3, 4, 5, 6, 7]

/-- The lowest line that is pending in `is` and enabled in `im` (R152, R153). -/
def selectLine (im is : Byte) : Option RegIndex :=
  lineOrder.find? fun i => im.getLsbD i.val && is.getLsbD i.val

/-- `IVT(i)` = 0xFF - (8 - i) (R155; log 18). -/
def vectorAddress (i : RegIndex) : Byte := BitVec.ofNat 8 (0xFF - (8 - i.val))

/-- The nine bytes interrupt entry pushes, in order: `pc`, `fl`, R0 to R6 (R154). -/
def frameBytes (s : State) : List Byte :=
  [pcByte s.pc, s.fl, s.reg 0, s.reg 1, s.reg 2, s.reg 3, s.reg 4, s.reg 5, s.reg 6]

/-- Interrupt entry for line `i` (R154): the whole of IS is cleared, the frame is pushed, and the vector
is read after the pushes. IM, `fl` and R0 to R5 are unchanged. -/
def interruptEntry (i : RegIndex) (s : State) : Effect :=
  let s0 := s.setReg 6 0x00
  (pushAll (frameBytes s0) s0).andThen fun s1 => .ok (s1.setPc (zext9 (s1.mem.read (vectorAddress i))))

/-- The poll (R151, R153): the timer sample, then at most one entry. The test of R153 that IS is not 0 is
in `selectLine`, which selects no line then (log 13). -/
def interruptPoll (tmr : Bool) (s : State) : Effect :=
  let s1 := sampleTimer tmr s
  match selectLine s1.im s1.is with
  | some i => interruptEntry i s1
  | none => .ok s1

end Sys2Proof.Machine
end

