-- ==== Sys2Proof/Machine/Iteration.lean ====
section
/-! DEFINITION. Fetch, the Dispatcher's iteration, the phases of a run (`40_dispatcher.md` R80 to R86;
`70_reset_and_hazards.md` R170 to R173). -/

namespace Sys2Proof.Machine

/-- The bytes an instruction at `pc` can be made of: those at `pc`, `pc + 1`, `pc + 2` that are not above
0xFF. Reads have no effect (`20_memory.md` R45), so looking at three is fetching exactly the ones the
opcode announces (R82; log 11); a byte announced and not there is FETCH_RANGE. -/
def fetchBytes (s : State) : List Byte :=
  (([0, 1, 2].map (s.pc.toNat + ·)).filter (· < 256)).map fun p => s.mem.read (BitVec.ofNat 8 p)

/-- The fault that bytes with no instruction raise (R82, R83). -/
def rejectFault : DecodeReject → FaultCode
  | .truncated => .fetchRange
  | .illegalOpcode => .illegalOpcode

/-- Steps 3 to 7 of R80: fetch, decode, execute. -/
def fetchExecute (s : State) : StepResult :=
  match decodeWith s.hltEnc (fetchBytes s) with
  | .ok (i, _) => exec i s
  | .error r => .next (s.raiseFault (rejectFault r))

/-- One iteration (R80), with the input `tmr`. A fault of the poll has the `pc` at the poll in its record
(`60_exceptions.md` R142). -/
def iteration (tmr : Bool) (s : State) : StepResult :=
  if 0xFF < s.pc.toNat then .next (s.setRun .pcPastEnd)
  else
    match interruptPoll tmr s with
    | .ok s1 => fetchExecute s1
    | .error c => .next (s.raiseFault c)

/-- One sample of the pins in LOADING: the load port writes a cell, `start` begins the run
(`70_reset_and_hazards.md` R172, R173; both at once: log 3). -/
def loadPhase (p : Pins) (s : State) : State :=
  let s1 := if p.loadWe then s.writeMem p.loadAddr p.loadData else s
  if p.start then s1.setRun .running else s1

/-- One step: the pins are sampled; `rst` wins; else what the run state says. In a terminal state nothing
happens (`10_state.md` R27). -/
def stepOnce (s : State) : StepResult :=
  let p := s.pins
  let s1 := s.consume
  if p.rst then .next s1.afterRst
  else
    match s.run with
    | .loading => .next (loadPhase p s1)
    | .running => iteration p.tmr s1
    | .halted | .pcPastEnd | .fault => .next s1

/-- Write bytes at consecutive addresses. -/
def writeBytes (m : Memory) (a : Byte) : List Byte → Memory
  | [] => m
  | v :: rest => writeBytes (m.write a v) (a + 1) rest

/-- `s` made to fetch and run three given bytes in its next step: it is RUNNING, its next input sample is
a quiet host with `tmr` = 0, no enabled line is pending, and the bytes lie at `pc` (at 0x000 where three
bytes at `pc` would not fit). -/
def placeAtFetch (s : State) (bytes : List Byte) : State :=
  let p : PcWord := if s.pc.toNat ≤ 0xFD then s.pc else 0x000
  { s with
    regs := if (selectLine s.im s.is).isSome then s.regs.set 6 0x00 else s.regs
    pc := p
    mem := writeBytes s.mem (pcByte p) bytes
    run := .running
    inputs := quietPins false :: s.inputs }

end Sys2Proof.Machine
end

