-- ==== Sys2Proof/Machine/Step.lean ====
section
/-! DEFINITION. The step of the machine, and the host's way to place an instruction. -/

namespace Sys2Proof.Machine

/-- One step of the machine. -/
def step (s : State) : Host.Outcome State Fault Refusal := stepOnce s

/-- `s` with the instruction of an opcode-table word placed so that the very next step runs it (log 2). -/
def State.withFetchWord (s : State) (nbits w : Nat) : State := placeAtFetch s (tableWordBytes nbits w)

end Sys2Proof.Machine
end

