-- ==== Sys2Proof/Machine/Loader.lean ====
section
/-! DEFINITION. The loader, which is outside the core (`00_scope.md` R4 (a)): the text format it reads
(`30_encoding.md` R72) and the samples of the load port it gives (`70_reset_and_hazards.md` R173). -/

namespace Sys2Proof.Machine

/-- A load error: execution does not start and the core raises nothing (`60_exceptions.md` R146). -/
inductive LoadError where
  /-- A line whose first 8 characters are not 8 binary digits. -/
  | malformedLine
  /-- An image of more than 256 bytes. -/
  | imageTooLong
  deriving DecidableEq, Repr

/-- A character `0` or `1`. -/
def binaryDigit : Char → Option Bool
  | '0' => some false
  | '1' => some true
  | _ => none

/-- The byte of binary digits, most significant first (R72). -/
def byteOfDigits (digits : List Bool) : Byte :=
  BitVec.ofNat 8 (digits.foldl (fun n d => 2 * n + d.toNat) 0)

/-- A line that takes no address: empty, or beginning with `#` (R72). -/
def isSkippedLine (line : List Char) : Bool := line.isEmpty || line.head? == some '#'

/-- The byte of a line that is not skipped: its first 8 characters; the rest is ignored (R72; fewer than
8 characters: log 23). -/
def parseLine (line : List Char) : Except LoadError Byte :=
  match (line.take 8).mapM binaryDigit with
  | some digits => if digits.length = 8 then .ok (byteOfDigits digits) else .error .malformedLine
  | none => .error .malformedLine

/-- The bytes of a program text (R72). -/
def parseText : List (List Char) → Except LoadError (List Byte)
  | [] => .ok []
  | line :: rest =>
    if isSkippedLine line then parseText rest
    else
      match parseLine line, parseText rest with
      | .ok v, .ok image => .ok (v :: image)
      | .error e, _ => .error e
      | _, .error e => .error e

/-- One write through the load port. -/
def loadPins (a v : Byte) : Pins := ⟨false, true, a, v, false, false⟩

/-- `start`. -/
def startPins : Pins := ⟨false, false, 0x00, 0x00, true, false⟩

/-- The writes of an image: byte k goes to address k (R173). -/
def loadWrites (a : Byte) : List Byte → List Pins
  | [] => []
  | v :: rest => loadPins a v :: loadWrites (a + 1) rest

/-- The samples by which the host loads an image and starts the run; an image of more than 256 bytes is a
load error (R173). -/
def loadScript (image : List Byte) : Except LoadError (List Pins) :=
  if image.length ≤ 256 then .ok (loadWrites 0x00 image ++ [startPins]) else .error .imageTooLong

end Sys2Proof.Machine
end

