-- ==== Sys2Proof/Machine/Ports.lean ====
section
/-! DEFINITION. The output pins of the core (`00_scope.md` R6). They are no state: they are what a step from
one state to the next shows (log 25). -/

namespace Sys2Proof.Machine

/-- The output pins (R6). `run` is the enumeration of `10_state.md` R27. -/
structure OutPins where
  outValid : Bool
  outKind : BitVec 1
  outData : Byte
  run : RunState
  faultCode : BitVec 3
  faultPc : PcWord
  deriving DecidableEq, Repr

/-- The output event of the step from `s` to `t`: what `t` has on the output stream beyond `s`
(`10_state.md` R28). A step with `rst` empties the stream and has none. -/
def emitted (s t : State) : Option OutEvent := (t.output.drop s.output.length).head?

/-- The output pins at the end of the step from `s` to `t`: one event per PRN or PRA executed, the run state
and the fault record. With no event the kind and the data are free values (log 25). -/
def outPins (s t : State) : OutPins where
  outValid := (emitted s t).isSome
  outKind := ((emitted s t).map fun e => e.kind.bit).getD (Config.idleOutKind s.draws)
  outData := ((emitted s t).map OutEvent.value).getD (Config.idleOutData s.draws)
  run := t.run
  faultCode := t.faultCode.bits
  faultPc := t.faultPc

end Sys2Proof.Machine
end

