-- ==== Sys2Proof/Safety.lean ====
section
/-! DEFINITION. The terms the statements use: the invariant of the machine, ending in a fault, where an
instruction lies in memory, what an instruction writes. -/

namespace Sys2Proof.Machine

/-- The iteration ends in the fault `c` raised from `s` (`60_exceptions.md` R140, R142, R144): a next
state in which `run` is FAULT, the record holds `c` and the `pc` of `s`, and the output stream is that of
`s`. Nothing is said of registers, `fl`, `pc` and memory. -/
def FaultsWith (c : FaultCode) (s : State) (o : StepResult) : Prop :=
  ∃ t, o = .next t ∧ t.run = .fault ∧ t.faultCode = c ∧ t.faultPc = s.pc ∧ t.output = s.output

/-- The bytes `code` lie at `pc` and the cells after it, all of them at or below 0xFF. -/
def CodeAt (s : State) (code : List Byte) : Prop :=
  s.pc.toNat + code.length ≤ 256 ∧
    ∀ k (h : k < code.length), s.mem.read (BitVec.ofNat 8 (s.pc.toNat + k)) = code[k]

/-- The byte at address `p` of a 9-bit program counter value. -/
def byteAt (s : State) (p : PcWord) : Byte := s.mem.read (pcByte p)

/-- An instruction of format F0 with opcode byte `op` (`30_encoding.md` R60, R64): where that byte lies at
`pc`, fetch and decode give the instruction, at 0xFF too (`40_dispatcher.md` R82). -/
def EncodedF0 (op : Byte) (i : Instr) : Prop :=
  ∀ s : State, HltEncOk s.hltEnc → s.pc.toNat ≤ 0xFF → byteAt s s.pc = op → fetchExecute s = exec i s

/-- An instruction of format F1 with opcode byte `op` (R60, R64): where that byte lies at `pc`, the next
byte is its operand; at 0xFF the fetch faults (R82). -/
def EncodedF1 (op : Byte) (mk : Byte → Instr) : Prop :=
  ∀ s : State, HltEncOk s.hltEnc → s.pc.toNat ≤ 0xFF → byteAt s s.pc = op →
    (s.pc.toNat ≤ 0xFE → fetchExecute s = exec (mk (byteAt s (s.pc + 1))) s) ∧
    (s.pc.toNat = 0xFF → FaultsWith .fetchRange s (fetchExecute s))

/-- An instruction of format F2 with opcode byte `op` (R60, R64): where that byte lies at `pc`, the next
two bytes are its operands; at 0xFE and 0xFF the fetch faults (R82). -/
def EncodedF2 (op : Byte) (mk : Byte → Byte → Instr) : Prop :=
  ∀ s : State, HltEncOk s.hltEnc → s.pc.toNat ≤ 0xFF → byteAt s s.pc = op →
    (s.pc.toNat ≤ 0xFD → fetchExecute s = exec (mk (byteAt s (s.pc + 1)) (byteAt s (s.pc + 2))) s) ∧
    (0xFE ≤ s.pc.toNat → FaultsWith .fetchRange s (fetchExecute s))

/-- An instruction with one reg operand faults with REG_RANGE when the operand byte is above 7, whatever
the state (`40_dispatcher.md` R84). -/
def ChecksReg (mk : Byte → Instr) : Prop :=
  ∀ (s : State) (a : Byte), 7 < a.toNat → FaultsWith .regRange s (exec (mk a) s)

/-- An instruction with two reg operands faults with REG_RANGE when one of them is above 7 (R84). -/
def ChecksRegs (mk : Byte → Byte → Instr) : Prop :=
  ∀ (s : State) (a b : Byte), 7 < a.toNat ∨ 7 < b.toNat → FaultsWith .regRange s (exec (mk a b) s)

/-- A state that a RUNNING step without `rst` polls and fetches in: `pc` is inside memory. -/
def Iterates (s : State) : Prop := s.run = .running ∧ s.pins.rst = false ∧ s.pc.toNat ≤ 0xFF

/-- The state a RUNNING step has once the pins and the timer are sampled (`60_exceptions.md` R151). -/
def sampled (s : State) : State := sampleTimer s.pins.tmr s.consume

/-- A terminal state: no further iteration happens until reset (`00_scope.md` R9). -/
def RunState.terminal : RunState → Bool
  | .loading | .running => false
  | .halted | .pcPastEnd | .fault => true

/-- The invariant of the machine. -/
structure State.Inv (s : State) : Prop where
  /-- Memory is in its canonical form. -/
  memWf : s.mem.wf
  /-- `pc` takes the values 0x000 to 0x100 only (`10_state.md` R15: the spec's decision D2, log 10). While `run`
  is FAULT the spec does not bound it (`60_exceptions.md` R144): there this is the model's choice, log 5. -/
  pcRange : s.pc.toNat ≤ 0x100
  /-- The reserved flag bits hold 0 (R18), as long as no fault has left `fl` open (R144). -/
  flReserved : s.run ≠ .fault → s.fl &&& 0x1F = 0
  /-- The record has code 0 exactly when `run` is not FAULT, and never code 7 (`60_exceptions.md` R141:
  the codes are the spec's decision D14, log 20). -/
  recordClear : s.faultCode = .none ↔ s.run ≠ .fault
  recordCode : s.faultCode ≠ .aluUnsupported
  /-- `fault_pc` is an address an instruction can lie at (R142; 0 when there is no fault, R30). -/
  recordPc : s.faultPc.toNat ≤ 0xFF
  /-- While LOADING only memory differs from the reset state (`70_reset_and_hazards.md` R172, R173: the phases are
  the spec's decision D18). -/
  loadingClean : s.run = .loading →
    s.regs = State.reset.regs ∧ s.pc = 0 ∧ s.fl = 0 ∧ s.faultPc = 0 ∧ s.output = []
  /-- The parameter HLT_ENC is legal (`30_encoding.md` R65; log 1). -/
  hltOk : HltEncOk s.hltEnc

/-- Number of operand bytes (`30_encoding.md` R64, column n). -/
def operandBytes : Instr → Nat
  | .hlt | .ret => 0
  | .prn _ | .pra _ | .not _ | .inc _ | .dec _ | .push _ | .pop _ | .call _ | .jmp _ | .jeq _ | .jne _ => 1
  | .ldi _ _ | .add _ _ | .mul _ _ | .cmp _ _ | .and _ _ | .or _ _ | .xor _ _ | .shl _ _ | .shr _ _
  | .mod _ _ | .st _ _ => 2

/-- The instructions that write `pc` themselves (R64, column PC). -/
def writesPcItself : Instr → Bool
  | .call _ | .ret | .jmp _ | .jeq _ | .jne _ => true
  | _ => false

/-- The registers an instruction may write (`10_state.md` R14): the destination, and R7 for the stack
instructions. -/
def writtenRegs : Instr → List Byte
  | .ldi a _ | .add a _ | .mul a _ | .and a _ | .or a _ | .xor a _ | .shl a _ | .shr a _ | .mod a _ => [a]
  | .not a | .inc a | .dec a => [a]
  | .push _ | .call _ | .ret => [7]
  | .pop a => [a, 7]
  | .hlt | .prn _ | .pra _ | .cmp _ _ | .st _ _ | .jmp _ | .jeq _ | .jne _ => []

/-- The address an instruction stores to (`20_memory.md` R42): ST at the value of its first register,
PUSH and CALL at SP - 1. -/
def storeAddress : Instr → State → Option Byte
  | .st a _, s => (regOf a).map s.reg
  | .push _, s | .call _, s => some (s.sp - 1)
  | _, _ => none

/-- `TIMER_MONOTONE` (`60_exceptions.md` R151), of the samples lined up: once `tmr` is 1 it stays 1. -/
def TimerMonotone (samples : List Pins) : Prop :=
  samples.Pairwise fun p q => p.tmr = true → q.tmr = true

end Sys2Proof.Machine
end

