-- ==== Sys2Proof/Certificates/Slice0/Obligations.lean ====
section
/-! DEFINITION. The statements for the provers. Nothing is proved here. A register operand is written
`regByte r` for a register index `r`, which is every byte 0 to 7; bytes above 7 are `ChecksReg` and
`ChecksRegs`. The FETCH_RANGE clauses (`EncodedF1`, `EncodedF2`) and the REG_RANGE clauses (`ChecksReg`,
`ChecksRegs`) are the spec's decisions D4 and D6, which each instruction's own rule repeats (log 20). -/

open Sys2Proof Sys2Proof.Machine

/-! ## Reset, loading, the run state -/

/-- The reset values of `10_state.md` R30. Those of R0 to R6 and `fl` are the spec's decision D12 (log 7),
those of `run` and the record its D14 and D18. -/
def Obligations.ResetValues : Prop :=
  (∀ a : Byte, State.reset.mem.read a = 0x00) ∧ State.reset.reg 7 = 0xF4 ∧ State.reset.pc = 0x000 ∧
  (∀ r : RegIndex, r < 7 → State.reset.reg r = 0x00) ∧ State.reset.fl = 0x00 ∧
  State.reset.run = .loading ∧ State.reset.faultCode = .none ∧ State.reset.faultCode.bits = 0 ∧
  State.reset.faultPc = 0x000 ∧ State.reset.output = []

/-- The invariant holds at reset (with the default HLT_ENC, log 1; `fl` is 0x00 by the spec's D12, log 7). -/
def Obligations.ResetMeetsInvariant : Prop := State.reset.Inv

/-- Every step keeps the invariant, from every state that has it. That `pc` is at most 0x100 is the spec's
decision D2 (log 10) outside FAULT and the model's choice in FAULT, where R144 leaves `pc` open (log 5); the
clauses on the record are the spec's D14 (log 20), that on LOADING its D18. -/
def Obligations.StepKeepsInvariant : Prop :=
  ∀ s t : State, s.Inv → step s = .next t → t.Inv

/-- No step stops: a fatal condition is a next state with `run` = FAULT (log 6), and every instruction has
a meaning for every operand bytes. -/
def Obligations.EveryStepAnswersNext : Prop :=
  (∀ s : State, ∃ t, step s = .next t) ∧ (∀ (i : Instr) (s : State), ∃ t, exec i s = .next t)

/-- `rst` puts every piece of the spec's state at its reset value, in every run state
(`70_reset_and_hazards.md` R170; the model's own fields stay: log 9). -/
def Obligations.RstResetsEveryRunState : Prop :=
  ∀ s : State, s.pins.rst = true →
    step s = .next { State.reset with inputs := s.inputs.tail, draws := s.draws + 1, hltEnc := s.hltEnc }

/-- A step in LOADING: the load port writes one cell, `start` leaves LOADING, nothing else changes
(`70_reset_and_hazards.md` R172, R173; both in one sample: log 3). -/
def Obligations.LoadingStepWritesMemoryOnly : Prop :=
  ∀ s : State, s.run = .loading → s.pins.rst = false →
    step s = .next { s with
      mem := if s.pins.loadWe then s.mem.write s.pins.loadAddr s.pins.loadData else s.mem
      run := if s.pins.start then .running else .loading
      inputs := s.inputs.tail
      draws := s.draws + 1 }

/-- The loader's script, sampled from reset, puts byte k of the image at address k, leaves every other cell
0x00 and starts the run in the reset state; an image of more than 256 bytes is a load error. -/
def Obligations.LoadScriptFillsMemory : Prop :=
  (∀ image : List Byte, image.length ≤ 256 → ∃ script, loadScript image = .ok script ∧
    ∃ t : State, Host.Core.run core script.length { State.reset with inputs := script } = .next t ∧
      (∀ a : Byte, t.mem.read a = (image[a.toNat]?).getD 0x00) ∧ t.mem.wf ∧
      t.run = .running ∧ t.regs = State.reset.regs ∧ t.pc = 0x000 ∧ t.fl = 0x00 ∧ t.output = []) ∧
  (∀ image : List Byte, 256 < image.length → loadScript image = .error .imageTooLong)

/-- In HALTED, PC_PAST_END and FAULT a step without `rst` changes nothing of the spec's state
(`10_state.md` R27). -/
def Obligations.TerminalStatesStay : Prop :=
  ∀ s : State, s.run.terminal = true → s.pins.rst = false →
    step s = .next { s with inputs := s.inputs.tail, draws := s.draws + 1 }

/-- Running off the end of memory: nothing but `run` changes, no poll and no fetch happens
(`40_dispatcher.md` R81; the spec's decision D3). -/
def Obligations.RunOffEndsTheRun : Prop :=
  ∀ s : State, s.run = .running → s.pins.rst = false → 0xFF < s.pc.toNat →
    step s = .next { s with run := .pcPastEnd, inputs := s.inputs.tail, draws := s.draws + 1 }

/-- How `run` can change without `rst` (the table of `10_state.md` R27). HALTED is entered with `pc` at a
HLT byte (R87: that `pc` stays there is the spec's decision D16, log 21), PC_PAST_END exactly from `pc` above
0xFF (R81: the terminal state is its decision D3, log 10); LOADING and `start` are its D18. -/
def Obligations.RunStateTransitions : Prop :=
  ∀ s t : State, HltEncOk s.hltEnc → step s = .next t → s.pins.rst = false →
    (s.run = .loading → t.run = if s.pins.start then .running else .loading) ∧
    (s.run = .running → t.run ≠ .loading ∧
      (t.run = .pcPastEnd ↔ 0xFF < s.pc.toNat) ∧
      (t.run = .halted → t.pc.toNat ≤ 0xFF ∧ byteAt t t.pc = t.hltEnc)) ∧
    (s.run.terminal = true → t.run = s.run)

/-- The parameter HLT_ENC is fixed for the run (`10_state.md` R31). -/
def Obligations.StepKeepsHltParameter : Prop :=
  ∀ s t : State, step s = .next t → t.hltEnc = s.hltEnc

/-- The load port and `start` do nothing outside LOADING (the spec's decision D24 on what the host may do,
`20_memory.md` R55; that the core ignores the pins then is DEDUCED, log 24): two samples that agree on `rst` and
`tmr` give the same step. -/
def Obligations.LoadPortDeadOutsideLoading : Prop :=
  ∀ (s : State) (p q : Pins) (rest : List Pins), s.run ≠ .loading → p.rst = q.rst → p.tmr = q.tmr →
    step { s with inputs := p :: rest } = step { s with inputs := q :: rest }

/-! ## Memory -/

/-- Memories in canonical form that read the same at every address are equal. -/
def Obligations.CanonicalMemoriesAreExtensional : Prop :=
  ∀ m n : Memory, m.wf → n.wf → (∀ a : Byte, m.read a = n.read a) → m = n

/-- A store is seen by the very next fetch (`20_memory.md` R53): a ST whose address is that of the next
instruction makes its byte the next opcode byte. -/
def Obligations.StoreSeenByNextFetch : Prop :=
  ∀ (s : State) (ra rb : RegIndex), s.pc.toNat + 3 ≤ 0xFF → s.reg ra = pcByte (s.pc + 3) →
    ∃ t, exec (.st (regByte ra) (regByte rb)) s = .next t ∧ (fetchBytes t).head? = some (s.reg rb)

/-! ## Encoding and decoding -/

/-- Decoding an encoded instruction, whatever bytes follow it, gives the instruction back, for every
operand byte and every legal HLT_ENC. -/
def Obligations.DecodeOfEncode : Prop :=
  ∀ (h : Byte) (i : Instr) (rest : List Byte), HltEncOk h →
    decodeWith h (encodeWith h i ++ rest) = .ok (i, rest)

/-- Bytes that decode to an instruction are that instruction's encoding: each encoding has one meaning. -/
def Obligations.EncodeOfDecode : Prop :=
  ∀ (h : Byte) (bytes rest : List Byte) (i : Instr), HltEncOk h →
    decodeWith h bytes = .ok (i, rest) → bytes = encodeWith h i ++ rest

/-- Words written out from the table of `30_encoding.md` R64, with the default HLT_ENC (log 1). -/
def Obligations.DecodeTableWords : Prop :=
  decode [0b10000010, 0x00, 0x08] = .ok (.ldi 0 8, []) ∧
  decode [0b10100000, 0x00, 0x01] = .ok (.add 0 1, []) ∧
  decode [0b10101101, 0x06, 0x07] = .ok (.shr 6 7, []) ∧
  decode [0b01101001, 0x04] = .ok (.not 4, []) ∧
  decode [0b01010000, 0x01, 0xFF] = .ok (.call 1, [0xFF]) ∧
  decode [0b00010001] = .ok (.ret, []) ∧
  decode [0b01010101, 0x02] = .ok (.jeq 2, []) ∧
  decode [0b00000001, 0x00] = .ok (.hlt, [0x00]) ∧
  decode [0b00010011, 0x00, 0x00] = .error .illegalOpcode ∧
  decode [0b11000000] = .error .illegalOpcode

/-- The numbers of legal opcode bytes of each operand count (`30_encoding.md` R70), for every legal
HLT_ENC. -/
def Obligations.LegalOpcodeCounts : Prop :=
  ∀ (h a b : Byte), HltEncOk h →
    let legal := fun (n k : Nat) => (decodeOpcode h (BitVec.ofNat 8 k) a b).isSome &&
      operandCount (BitVec.ofNat 8 k) == n
    ((List.range 256).filter (legal 0)).length = 2 ∧ ((List.range 256).filter (legal 1)).length = 11 ∧
    ((List.range 256).filter (legal 2)).length = 11 ∧ ((List.range 256).filter (legal 3)).length = 0

/-- Fetch and decode faults in their order (`40_dispatcher.md` R82, R83; `60_exceptions.md` R143, items 2
to 4; the spec's decisions D4, D5, D22): count 3, then an operand byte above 0xFF, then an opcode byte that
no instruction has. -/
def Obligations.FetchAndDecodeFaults : Prop :=
  ∀ s : State, HltEncOk s.hltEnc → s.pc.toNat ≤ 0xFF →
    let n := operandCount (byteAt s s.pc)
    (n = 3 → FaultsWith .illegalOpcode s (fetchExecute s)) ∧
    (n ≠ 3 → 0xFF < s.pc.toNat + n → FaultsWith .fetchRange s (fetchExecute s)) ∧
    (n ≠ 3 → s.pc.toNat + n ≤ 0xFF → (∀ i, (encodeWith s.hltEnc i).head? ≠ some (byteAt s s.pc)) →
      FaultsWith .illegalOpcode s (fetchExecute s))

/-- A step runs the instruction whose bytes lie at `pc`, on the state with the pins and the timer sampled,
when no enabled line is pending. -/
def Obligations.StepRunsDecodedInstruction : Prop :=
  ∀ (s : State) (i : Instr), Iterates s → HltEncOk s.hltEnc →
    selectLine (sampled s).im (sampled s).is = none → CodeAt s (encodeWith s.hltEnc i) →
    decodeWith s.hltEnc (fetchBytes s) = .ok (i, (fetchBytes s).drop (encodeWith s.hltEnc i).length) ∧
    step s = exec i (sampled s)

/-! ## The instructions -/

/-- ADD, MUL, INC, DEC (`41_alu.md` R101, R102, R111, R112): the exact result modulo 256, `pc` past the
instruction, nothing else changed; encoding, fetch and register faults. -/
def Obligations.ArithmeticRules : Prop :=
  (EncodedF2 0xA0 .add ∧ EncodedF2 0xA2 .mul ∧ EncodedF1 0x65 .inc ∧ EncodedF1 0x66 .dec) ∧
  (∀ (s : State) (ra rb : RegIndex),
    exec (.add (regByte ra) (regByte rb)) s = .next { s with
      regs := s.regs.set ra (BitVec.ofNat 8 ((s.reg ra).toNat + (s.reg rb).toNat)), pc := s.pc + 3 } ∧
    exec (.mul (regByte ra) (regByte rb)) s = .next { s with
      regs := s.regs.set ra (BitVec.ofNat 8 ((s.reg ra).toNat * (s.reg rb).toNat)), pc := s.pc + 3 } ∧
    exec (.inc (regByte ra)) s = .next { s with
      regs := s.regs.set ra (BitVec.ofNat 8 ((s.reg ra).toNat + 1)), pc := s.pc + 2 } ∧
    exec (.dec (regByte ra)) s = .next { s with
      regs := s.regs.set ra (BitVec.ofNat 8 ((s.reg ra).toNat + 255)), pc := s.pc + 2 }) ∧
  (ChecksRegs .add ∧ ChecksRegs .mul ∧ ChecksReg .inc ∧ ChecksReg .dec)

/-- AND, OR, XOR, NOT (`41_alu.md` R104 to R107). -/
def Obligations.LogicRules : Prop :=
  (EncodedF2 0xA8 .and ∧ EncodedF2 0xAA .or ∧ EncodedF2 0xAB .xor ∧ EncodedF1 0x69 .not) ∧
  (∀ (s : State) (ra rb : RegIndex),
    exec (.and (regByte ra) (regByte rb)) s = .next { s with
      regs := s.regs.set ra (s.reg ra &&& s.reg rb), pc := s.pc + 3 } ∧
    exec (.or (regByte ra) (regByte rb)) s = .next { s with
      regs := s.regs.set ra (s.reg ra ||| s.reg rb), pc := s.pc + 3 } ∧
    exec (.xor (regByte ra) (regByte rb)) s = .next { s with
      regs := s.regs.set ra (s.reg ra ^^^ s.reg rb), pc := s.pc + 3 } ∧
    exec (.not (regByte ra)) s = .next { s with
      regs := s.regs.set ra (BitVec.ofNat 8 (255 - (s.reg ra).toNat)), pc := s.pc + 2 }) ∧
  (ChecksRegs .and ∧ ChecksRegs .or ∧ ChecksRegs .xor ∧ ChecksReg .not)

/-- SHL and SHR by the whole byte of the second register; an amount of 8 or more gives 0x00
(`41_alu.md` R108, R109; the amount is the spec's decision D17, log 15). -/
def Obligations.ShiftRules : Prop :=
  (EncodedF2 0xAC .shl ∧ EncodedF2 0xAD .shr) ∧
  (∀ (s : State) (ra rb : RegIndex),
    exec (.shl (regByte ra) (regByte rb)) s = .next { s with
      regs := s.regs.set ra (if (s.reg rb).toNat < 8 then s.reg ra <<< (s.reg rb).toNat else 0x00)
      pc := s.pc + 3 } ∧
    exec (.shr (regByte ra) (regByte rb)) s = .next { s with
      regs := s.regs.set ra (BitVec.ofNat 8 ((s.reg ra).toNat / 2 ^ (s.reg rb).toNat)), pc := s.pc + 3 } ∧
    (8 ≤ (s.reg rb).toNat → (s.reg ra).toNat / 2 ^ (s.reg rb).toNat = 0)) ∧
  (ChecksRegs .shl ∧ ChecksRegs .shr)

/-- MOD (`41_alu.md` R110): the remainder where the divisor register holds a value that is not 0;
DIV_ZERO where it holds 0, whatever its index; the register check comes first. -/
def Obligations.ModRule : Prop :=
  EncodedF2 0xA4 .mod ∧
  (∀ (s : State) (ra rb : RegIndex), s.reg rb ≠ 0x00 →
    exec (.mod (regByte ra) (regByte rb)) s = .next { s with
      regs := s.regs.set ra (BitVec.ofNat 8 ((s.reg ra).toNat % (s.reg rb).toNat)), pc := s.pc + 3 }) ∧
  (∀ (s : State) (ra rb : RegIndex), s.reg rb = 0x00 →
    FaultsWith .divZero s (exec (.mod (regByte ra) (regByte rb)) s)) ∧
  ChecksRegs .mod

/-- CMP (`41_alu.md` R103): exactly one of E, L, G is set, the other bits stay (sticky: the spec's decision
D9; bit places: D10), no register changes. -/
def Obligations.CmpRule : Prop :=
  EncodedF2 0xA7 .cmp ∧
  (∀ (s : State) (ra rb : RegIndex),
    exec (.cmp (regByte ra) (regByte rb)) s = .next { s with
      fl := s.fl ||| (if s.reg ra = s.reg rb then 0x80 else if (s.reg ra).toNat < (s.reg rb).toNat then 0x20 else 0x40)
      pc := s.pc + 3 }) ∧
  ChecksRegs .cmp

/-- Each ALU result is the fixed-width unsigned operation on the operand values (`41_alu.md` R113; that a
shift takes the whole byte as its amount, so 8 or more gives 0x00, is the spec's decision D17, log 15). -/
def Obligations.AluIsFixedWidthArithmetic : Prop :=
  ∀ v w : Byte,
    aluAdd v w = v + w ∧ aluMul v w = v * w ∧ aluInc v = v + 1 ∧ aluDec v = v - 1 ∧
    aluShl v w = v <<< w.toNat ∧ aluShr v w = v >>> w.toNat ∧ aluNot v = ~~~v ∧
    aluAnd v w = v &&& w ∧ aluOr v w = v ||| w ∧ aluXor v w = v ^^^ w ∧
    (w ≠ 0 → aluMod v w = v % w ∧ (aluMod v w).toNat < w.toNat ∧
      ∃ q, v.toNat = q * w.toNat + (aluMod v w).toNat)

/-- LDI (`40_dispatcher.md` R88): every immediate byte is written as it stands; only the first operand is
checked. -/
def Obligations.LdiRule : Prop :=
  EncodedF2 0x82 .ldi ∧
  (∀ (s : State) (r : RegIndex) (imm : Byte),
    exec (.ldi (regByte r) imm) s = .next { s with regs := s.regs.set r imm, pc := s.pc + 3 }) ∧
  (∀ imm : Byte, ChecksReg fun a => .ldi a imm)

/-- ST (`40_dispatcher.md` R89): the second register's byte at the address the first holds; every other
byte of memory reads as before. -/
def Obligations.StRule : Prop :=
  EncodedF2 0x84 .st ∧
  (∀ (s : State) (ra rb : RegIndex),
    exec (.st (regByte ra) (regByte rb)) s = .next { s with
      mem := s.mem.write (s.reg ra) (s.reg rb), pc := s.pc + 3 } ∧
    ∀ c : Byte, (s.mem.write (s.reg ra) (s.reg rb)).read c = if c = s.reg ra then s.reg rb else s.mem.read c) ∧
  ChecksRegs .st

/-- PRN and PRA (`40_dispatcher.md` R90, R91; that output never blocks is the spec's decision D25). -/
def Obligations.PrintRules : Prop :=
  (EncodedF1 0x47 .prn ∧ EncodedF1 0x48 .pra) ∧
  (∀ (s : State) (r : RegIndex),
    exec (.prn (regByte r)) s = .next { s with output := s.output ++ [⟨.prn, s.reg r⟩], pc := s.pc + 2 } ∧
    exec (.pra (regByte r)) s = .next { s with output := s.output ++ [⟨.pra, s.reg r⟩], pc := s.pc + 2 }) ∧
  (ChecksReg .prn ∧ ChecksReg .pra)

/-- HLT (`40_dispatcher.md` R87): `run` is HALTED, `pc` stays (the spec's decision D16), at 0xFF too; its
byte is the parameter HLT_ENC (D1). -/
def Obligations.HltRule : Prop :=
  (∀ s : State, exec .hlt s = .next { s with run := .halted }) ∧
  (∀ s : State, HltEncOk s.hltEnc → s.pc.toNat ≤ 0xFF → byteAt s s.pc = s.hltEnc →
    fetchExecute s = .next { s with run := .halted })

/-- PUSH (`42_stack_call.md` R122): SP - 1, then the register as it is then (PUSH R7 stores SP - 1) at the
new SP; STACK_RANGE with SP = 0x00; every other byte of memory reads as before. The rule says both; the
spec records them as its decisions D19 and D7. -/
def Obligations.PushRule : Prop :=
  EncodedF1 0x45 .push ∧
  (∀ (s : State) (r : RegIndex), s.sp ≠ 0x00 → ∃ t, exec (.push (regByte r)) s = .next t ∧
    t = { s with
      regs := s.regs.set 7 (s.sp - 1)
      mem := s.mem.write (s.sp - 1) (if r = 7 then s.sp - 1 else s.reg r)
      pc := s.pc + 2 } ∧
    t.mem.read (s.sp - 1) = (if r = 7 then s.sp - 1 else s.reg r) ∧
    ∀ c : Byte, c ≠ s.sp - 1 → t.mem.read c = s.mem.read c) ∧
  (∀ (s : State) (r : RegIndex), s.sp = 0x00 → FaultsWith .stackRange s (exec (.push (regByte r)) s)) ∧
  ChecksReg .push

/-- POP (`42_stack_call.md` R123): the byte at SP into the register, then SP + 1; POP R7 ends with the
popped byte plus 1; STACK_RANGE where SP would pass 0xFF; PUSH and then POP of a register other than R7
restores it and SP. -/
def Obligations.PopRule : Prop :=
  EncodedF1 0x46 .pop ∧
  (∀ (s : State) (r : RegIndex), r ≠ 7 → s.sp ≠ 0xFF →
    exec (.pop (regByte r)) s = .next { s with
      regs := (s.regs.set r (s.mem.read s.sp)).set 7 (s.sp + 1), pc := s.pc + 2 }) ∧
  (∀ (s : State) (r : RegIndex), r ≠ 7 → s.sp = 0xFF →
    FaultsWith .stackRange s (exec (.pop (regByte r)) s)) ∧
  (∀ s : State, s.mem.read s.sp ≠ 0xFF →
    exec (.pop (regByte 7)) s = .next { s with regs := s.regs.set 7 (s.mem.read s.sp + 1), pc := s.pc + 2 }) ∧
  (∀ s : State, s.mem.read s.sp = 0xFF → FaultsWith .stackRange s (exec (.pop (regByte 7)) s)) ∧
  (∀ (s : State) (r : RegIndex), r ≠ 7 → s.sp ≠ 0x00 → ∃ t u, exec (.push (regByte r)) s = .next t ∧
    exec (.pop (regByte r)) t = .next u ∧ u.regs = s.regs) ∧
  ChecksReg .pop

/-- CALL (`42_stack_call.md` R124; register 7: R127): the address of the next instruction is pushed, then
`pc` is the register's value as it is then; RETADDR_RANGE at 0xFE (the spec's decision D8) before
STACK_RANGE with SP = 0x00 (D7, D22). -/
def Obligations.CallRule : Prop :=
  EncodedF1 0x50 .call ∧
  (∀ (s : State) (r : RegIndex), s.pc.toNat ≤ 0xFD → s.sp ≠ 0x00 →
    ∃ t, exec (.call (regByte r)) s = .next t ∧
    t = { s with
      regs := s.regs.set 7 (s.sp - 1)
      mem := s.mem.write (s.sp - 1) (BitVec.ofNat 8 (s.pc.toNat + 2))
      pc := (if r = 7 then s.sp - 1 else s.reg r).setWidth 9 } ∧
    t.mem.read (s.sp - 1) = BitVec.ofNat 8 (s.pc.toNat + 2) ∧
    ∀ c : Byte, c ≠ s.sp - 1 → t.mem.read c = s.mem.read c) ∧
  (∀ (s : State) (r : RegIndex), s.pc.toNat = 0xFE →
    FaultsWith .retaddrRange s (exec (.call (regByte r)) s)) ∧
  (∀ (s : State) (r : RegIndex), s.pc.toNat ≤ 0xFD → s.sp = 0x00 →
    FaultsWith .stackRange s (exec (.call (regByte r)) s)) ∧
  ChecksReg .call

/-- RET (`42_stack_call.md` R125): `pc` is the byte at SP, SP + 1; STACK_RANGE with SP = 0xFF
(the rule's own; the spec records it as its decision D7). -/
def Obligations.RetRule : Prop :=
  EncodedF0 0x11 .ret ∧
  (∀ s : State, s.sp ≠ 0xFF →
    exec .ret s = .next { s with regs := s.regs.set 7 (s.sp + 1), pc := (s.mem.read s.sp).setWidth 9 }) ∧
  (∀ s : State, s.sp = 0xFF → FaultsWith .stackRange s (exec .ret s))

/-- CALL and a later RET (`42_stack_call.md` R126): if the subroutine leaves SP and the cell of the return
address as it found them, RET goes to the instruction after the CALL and SP is as before the CALL. -/
def Obligations.CallThenRetReturns : Prop :=
  ∀ (s t u : State) (r : RegIndex), s.pc.toNat ≤ 0xFD → s.sp ≠ 0x00 →
    exec (.call (regByte r)) s = .next t → u.sp = t.sp → u.mem.read t.sp = t.mem.read t.sp →
    ∃ v, exec .ret u = .next v ∧ v.pc = s.pc + 2 ∧ v.sp = s.sp

/-- JMP, JEQ, JNE (`43_jumps.md` R130 to R132): the register's value or, not taken, `pc + 2`; nothing else
changes; the register is checked on both paths. -/
def Obligations.JumpRules : Prop :=
  (EncodedF1 0x54 .jmp ∧ EncodedF1 0x55 .jeq ∧ EncodedF1 0x56 .jne) ∧
  (∀ (s : State) (r : RegIndex),
    exec (.jmp (regByte r)) s = .next { s with pc := (s.reg r).setWidth 9 } ∧
    exec (.jeq (regByte r)) s = .next { s with
      pc := if s.fl &&& 0x80 = 0x80 then (s.reg r).setWidth 9 else s.pc + 2 } ∧
    exec (.jne (regByte r)) s = .next { s with
      pc := if s.fl &&& 0x80 = 0x00 then (s.reg r).setWidth 9 else s.pc + 2 }) ∧
  (ChecksReg .jmp ∧ ChecksReg .jeq ∧ ChecksReg .jne)

/-! ## Frames and rules over all instructions -/

/-- `pc` after an instruction (`40_dispatcher.md` R85): with opcode bit 4 = 0, and not HLT, the default
advance as a 9-bit sum that is not reduced modulo 256; with bit 4 = 1 what the instruction's own rule
writes (`42_stack_call.md` R124, R125; `43_jumps.md` R130 to R132). CALL R7 jumps to the decremented SP by the
spec's decision D19 (log 16), HLT leaves `pc` by its decision D16 (R87, log 21). -/
def Obligations.ProgramCounterAfterInstruction : Prop :=
  ∀ (h ir : Byte) (operands : List Byte) (i : Instr) (s t : State), HltEncOk h →
    encodeWith h i = ir :: operands → s.run = .running → s.pc.toNat ≤ 0xFF →
    exec i s = .next t → t.run ≠ .fault →
    (i = .hlt → t.pc = s.pc) ∧
    (directPcSet ir = false → i ≠ .hlt → t.pc.toNat = s.pc.toNat + 1 + operandCount ir) ∧
    (directPcSet ir = true → i ≠ .hlt →
      (∃ r, i = .jmp (regByte r) ∧ t.pc = zext9 (s.reg r)) ∨
      (∃ r, i = .jeq (regByte r) ∧ t.pc = if equalSet s.fl then zext9 (s.reg r) else s.pc + 2) ∨
      (∃ r, i = .jne (regByte r) ∧ t.pc = if equalSet s.fl then s.pc + 2 else zext9 (s.reg r)) ∨
      (∃ r, i = .call (regByte r) ∧ t.pc = zext9 (t.reg r)) ∨
      (i = .ret ∧ t.pc = zext9 (s.mem.read s.sp)))

/-- Every register is unchanged but the destination and, for PUSH, POP, CALL, RET, R7 (`writtenRegs`,
the table of `10_state.md` R14). -/
def Obligations.RegisterFrame : Prop :=
  ∀ (i : Instr) (s t : State) (r : RegIndex), s.run = .running → exec i s = .next t → t.run ≠ .fault →
    regByte r ∉ writtenRegs i → t.reg r = s.reg r

/-- Every byte of memory is unchanged but the one at the address ST, PUSH and CALL store to
(`storeAddress`, the table of `20_memory.md` R42); every other instruction leaves all of memory. -/
def Obligations.MemoryFrame : Prop :=
  ∀ (i : Instr) (s t : State) (c : Byte), s.run = .running → exec i s = .next t → t.run ≠ .fault →
    storeAddress i s ≠ some c → t.mem.read c = s.mem.read c

/-- What no instruction changes when it does not fault: the fault record, the inputs, the parameter; `run`
only by HLT; the output stream only by PRN and PRA. -/
def Obligations.RestOfStateFrame : Prop :=
  ∀ (i : Instr) (s t : State), s.run = .running → exec i s = .next t → t.run ≠ .fault →
    t.faultCode = s.faultCode ∧ t.faultPc = s.faultPc ∧ t.inputs = s.inputs ∧ t.draws = s.draws ∧
    t.hltEnc = s.hltEnc ∧ (i ≠ .hlt → t.run = .running) ∧
    ((∀ a, i ≠ .prn a ∧ i ≠ .pra a) → t.output = s.output)

/-- The only writer of `fl` is CMP, and nothing clears a flag (`10_state.md` R19; sticky: the spec's
decision D9): no other instruction and no poll changes it, and no step without `rst` that does not fault
clears a bit, so that E once set keeps every JEQ taken (`70_reset_and_hazards.md` R178). -/
def Obligations.FlagsNeverCleared : Prop :=
  (∀ (i : Instr) (s t : State), s.run = .running → exec i s = .next t → t.run ≠ .fault →
    (∀ a b, i ≠ .cmp a b) → t.fl = s.fl) ∧
  (∀ (tmr : Bool) (s t : State), interruptPoll tmr s = .ok t → t.fl = s.fl) ∧
  (∀ s t : State, step s = .next t → s.pins.rst = false → s.run ≠ .fault → t.run ≠ .fault →
    s.fl &&& t.fl = s.fl ∧ (equalSet s.fl = true → equalSet t.fl = true))

/-- Events are only appended to the output stream, also by a step that faults (`10_state.md` R28;
`60_exceptions.md` R144). -/
def Obligations.OutputOnlyGrows : Prop :=
  ∀ s t : State, step s = .next t → s.pins.rst = false →
    ∃ events, t.output = s.output ++ events ∧ events.length ≤ 1

/-- An instruction with a reg operand above 7 faults with REG_RANGE, before anything else it would do or
raise (`40_dispatcher.md` R84; `60_exceptions.md` R143 item 5; the spec's decision D6). -/
def Obligations.IllFormedInstructionsFault : Prop :=
  ∀ (i : Instr) (s : State), i.wf = false → FaultsWith .regRange s (exec i s)

/-- Which fault a well-formed instruction can raise, and when (`60_exceptions.md` R141, R143 item 6): MOD
DIV_ZERO; PUSH, POP, CALL, RET STACK_RANGE; CALL RETADDR_RANGE; no other instruction any. -/
def Obligations.WellFormedInstructionFaults : Prop :=
  ∀ (i : Instr) (s t : State), i.wf = true → s.run = .running → s.pc.toNat ≤ 0xFF →
    exec i s = .next t → t.run = .fault →
    FaultsWith t.faultCode s (exec i s) ∧
    ((∃ a rb, i = .mod a (regByte rb) ∧ t.faultCode = .divZero ∧ s.reg rb = 0x00) ∨
     (∃ a, i = .push a ∧ t.faultCode = .stackRange ∧ s.sp = 0x00) ∨
     (∃ a, i = .pop a ∧ t.faultCode = .stackRange ∧ (if a = 7 then s.mem.read s.sp else s.sp) = 0xFF) ∨
     (∃ a, i = .call a ∧ t.faultCode = .retaddrRange ∧ 0xFE ≤ s.pc.toNat) ∨
     (∃ a, i = .call a ∧ t.faultCode = .stackRange ∧ s.pc.toNat < 0xFE ∧ s.sp = 0x00) ∨
     (i = .ret ∧ t.faultCode = .stackRange ∧ s.sp = 0xFF))

/-! ## Interrupts -/

/-- The timer sample (`60_exceptions.md` R151; `tmr` is free: the spec's decision D13, log 4): bit 0 of IS
is set when `tmr` is 1, enabled or not; `tmr` = 0 changes nothing; nothing else of the spec's state does. -/
def Obligations.TimerSampleSetsBitZero : Prop :=
  ∀ s : State,
    sampled s = { s with
      regs := if s.pins.tmr then s.regs.set 6 (s.is ||| 0x01) else s.regs
      inputs := s.inputs.tail
      draws := s.draws + 1 }

/-- The poll (`60_exceptions.md` R153): after the timer sample the lowest line whose bit is set in IM & IS
is entered, and at most one; with no such line nothing happens. Every iteration polls, then fetches and
executes in the state the poll leaves, or ends in the poll's fault (`40_dispatcher.md` R80; the `pc` at the poll
in the record: `60_exceptions.md` R142, the spec's decision D14, log 20). -/
def Obligations.PollEntersLowestEnabledLine : Prop :=
  (∀ (tmr : Bool) (s : State) (i : RegIndex),
    ((sampleTimer tmr s).im &&& (sampleTimer tmr s).is).getLsbD i.val = true →
    (∀ j < i, ((sampleTimer tmr s).im &&& (sampleTimer tmr s).is).getLsbD j.val = false) →
    interruptPoll tmr s = interruptEntry i (sampleTimer tmr s)) ∧
  (∀ (tmr : Bool) (s : State), (sampleTimer tmr s).im &&& (sampleTimer tmr s).is = 0x00 →
    interruptPoll tmr s = .ok (sampleTimer tmr s)) ∧
  (∀ s : State, Iterates s →
    (∀ t, interruptPoll s.pins.tmr s.consume = .ok t → step s = fetchExecute t) ∧
    (∀ c, interruptPoll s.pins.tmr s.consume = .error c → FaultsWith c s (step s)))

/-- Interrupt entry (`60_exceptions.md` R154): IS is cleared whole, `pc`, `fl` and R0 to R6 are pushed in
that order, SP falls by 9, and `pc` is the byte of the vector slot as read after the pushes; IM, `fl`, R0
to R5 and every other byte of memory are as before; the same iteration executes at the new `pc`. -/
def Obligations.InterruptEntryPushesFrame : Prop :=
  (∀ (i : RegIndex) (s : State), 9 ≤ s.sp.toNat → ∃ t, interruptEntry i s = .ok t ∧
    t = { s with
      regs := (s.regs.set 6 0x00).set 7 (s.sp - 9)
      mem := t.mem
      pc := (t.mem.read (vectorAddress i)).setWidth 9 } ∧
    t.mem.read (s.sp - 1) = s.pc.setWidth 8 ∧
    t.mem.read (s.sp - 2) = s.fl ∧
    (∀ r : RegIndex, r < 6 → t.mem.read (s.sp - 3 - BitVec.ofNat 8 r.val) = s.reg r) ∧
    t.mem.read (s.sp - 9) = 0x00 ∧
    (∀ c : Byte, (∀ k : Nat, 1 ≤ k → k ≤ 9 → c ≠ s.sp - BitVec.ofNat 8 k) → t.mem.read c = s.mem.read c)) ∧
  (∀ (i : RegIndex) (s t : State), Iterates s → selectLine (sampled s).im (sampled s).is = some i →
    interruptEntry i (sampled s) = .ok t → step s = fetchExecute t)

/-- Entry with SP below 9 ends the run with STACK_RANGE and the `pc` at the poll in the record
(`60_exceptions.md` R157). -/
def Obligations.InterruptEntryOverflowFaults : Prop :=
  ∀ (s : State) (i : RegIndex), Iterates s → selectLine (sampled s).im (sampled s).is = some i →
    s.sp.toNat < 9 → FaultsWith .stackRange s (step s)

/-- The vector slot of line i is 0xF7 + i, at most 0xFE (`60_exceptions.md` R155; the spec's decision D11,
log 18). -/
def Obligations.VectorSlots : Prop :=
  ∀ i : RegIndex, (vectorAddress i).toNat = 0xF7 + i.val

/-- What the poll can change: IS, and on entry SP, memory and `pc`. IM is only read (`10_state.md` R20),
and `pc` stays inside memory. -/
def Obligations.PollFrame : Prop :=
  ∀ (tmr : Bool) (s t : State), interruptPoll tmr s = .ok t →
    (∀ r : RegIndex, r ≠ 6 → r ≠ 7 → t.reg r = s.reg r) ∧ t.fl = s.fl ∧ t.run = s.run ∧
    t.faultCode = s.faultCode ∧ t.faultPc = s.faultPc ∧ t.output = s.output ∧ t.hltEnc = s.hltEnc ∧
    (t.pc = s.pc ∧ t.mem = s.mem ∧ t.sp = s.sp ∨
      t.pc.toNat ≤ 0xFF ∧ t.is = 0x00 ∧ t.sp = s.sp - 9 ∧ 9 ≤ s.sp.toNat)

/-- With `tmr` = 1 and line 0 enabled every iteration enters the line-0 handler, whatever else is pending
(`60_exceptions.md` R159; `70_reset_and_hazards.md` R177; slot 0xF7 is the spec's decision D11). -/
def Obligations.EnabledTimerEntersEveryIteration : Prop :=
  ∀ s : State, Iterates s → s.pins.tmr = true → s.im.getLsbD 0 = true → 9 ≤ s.sp.toNat →
    ∃ t, step s = fetchExecute t ∧ t.is = 0x00 ∧ t.im = s.im ∧ t.sp = s.sp - 9 ∧
      t.pc = (t.mem.read 0xF7).setWidth 9

/-! ## The output pins -/

/-- The output port (`00_scope.md` R6, the spec's decision D18; `40_dispatcher.md` R90, R91): `out_valid` for
exactly the PRN and PRA executed, `out_kind` 0 and 1, `out_data` the register's byte; over a step the pins show
the one event the step appends to the stream; no event with `rst`; `run` and the record as the state has them.
That the pins are read off the step is the model's form, and the kind and data without an event are free (log 25). -/
def Obligations.OutputPinsShowEachEvent : Prop :=
  (∀ (s : State) (r : RegIndex),
    (∃ t, exec (.prn (regByte r)) s = .next t ∧ (outPins s t).outValid = true ∧
      (outPins s t).outKind = 0 ∧ (outPins s t).outData = s.reg r) ∧
    (∃ t, exec (.pra (regByte r)) s = .next t ∧ (outPins s t).outValid = true ∧
      (outPins s t).outKind = 1 ∧ (outPins s t).outData = s.reg r)) ∧
  (∀ (i : Instr) (s t : State), exec i s = .next t →
    ((outPins s t).outValid = true ↔ ∃ r, i = .prn (regByte r) ∨ i = .pra (regByte r))) ∧
  (∀ s t : State, step s = .next t → s.pins.rst = false →
    ((outPins s t).outValid = true → ∃ k : OutKind, (outPins s t).outKind = k.bit ∧
      t.output = s.output ++ [⟨k, (outPins s t).outData⟩]) ∧
    ((outPins s t).outValid = false → t.output = s.output)) ∧
  (∀ s t : State, step s = .next t → s.pins.rst = true → (outPins s t).outValid = false) ∧
  (∀ s t : State, (outPins s t).run = t.run ∧ (outPins s t).faultCode = t.faultCode.bits ∧
    (outPins s t).faultPc = t.faultPc)
end

