-- ==== Sys2Proof/Laws/Decode.lean ====
section
/-! SUPPORT. What the opcode table and the operand fetch of the decoder can answer. -/

namespace Sys2Proof

open Sys2Proof.Machine

/-- An opcode byte that selects an instruction is the first byte of its encoding, and the operand bytes it
was given are the rest. -/
theorem decodeOpcode_eq_some {h ir a b : Byte} {i : Instr} (hd : decodeOpcode h ir a b = some i) :
    encodeWith h i = ir :: [a, b].take (operandBytes i) := by
  unfold decodeOpcode at hd
  iterate 24
    rcases Decidable.em (ir = _) with e | e
    case inl => rw [if_pos e] at hd; obtain rfl := Option.some.inj hd; subst e; rfl
    rw [if_neg e] at hd; clear e
  cases hd

/-- A legal HLT_ENC has operand count 0 (R65 (a)). -/
theorem operandCount_of_hltEncOk {h : Byte} (ho : HltEncOk h) : operandCount h = 0 := by
  simp [operandCount, ho.1]

/-- An opcode byte with operands is not HLT_ENC. -/
theorem ne_hltEnc_of_operandCount {h op : Byte} (ho : HltEncOk h) (hop : operandCount op ≠ 0) : op ≠ h := by
  rintro rfl; exact hop (operandCount_of_hltEncOk ho)

theorem operandCount_le (ir : Byte) : operandCount ir ≤ 3 := by
  have := (ir >>> 6).isLt
  simp only [operandCount, BitVec.toNat_ushiftRight, Nat.shiftRight_eq_div_pow]
  have := ir.isLt
  omega

@[simp] theorem takeOperands_zero (rest : List Byte) : takeOperands 0 rest = some (0, 0, rest) := rfl

@[simp] theorem takeOperands_one (a : Byte) (rest : List Byte) :
    takeOperands 1 (a :: rest) = some (a, 0, rest) := rfl

@[simp] theorem takeOperands_two (a b : Byte) (rest : List Byte) :
    takeOperands 2 (a :: b :: rest) = some (a, b, rest) := rfl

/-- The operand bytes and the rest are all of the bytes. -/
theorem takeOperands_eq_some {n : Nat} {l rest : List Byte} {a b : Byte}
    (h : takeOperands n l = some (a, b, rest)) : n ≤ 2 ∧ l = [a, b].take n ++ rest := by
  match n, l with
  | 0, _ => simp [takeOperands] at h; simp [h]
  | 1, [] => simp [takeOperands] at h
  | 1, _ :: _ => simp [takeOperands] at h; simp [h]
  | 2, [] => simp [takeOperands] at h
  | 2, [_] => simp [takeOperands] at h
  | 2, _ :: _ :: _ => simp [takeOperands] at h; simp [h]
  | _ + 3, _ => simp [takeOperands] at h

end Sys2Proof
end

