-- ==== Sys2Proof/Laws/State.lean ====
section
/-! SUPPORT. One lemma per field per update, true by rfl, and the register read after each update, so
that no proof unfolds a record update. -/

namespace Sys2Proof.Machine

variable (s : State)

/-! ## The named registers are spelled `reg` -/

@[simp] theorem State.im_eq : s.im = s.reg 5 := rfl
@[simp] theorem State.is_eq : s.is = s.reg 6 := rfl
@[simp] theorem State.sp_eq : s.sp = s.reg 7 := rfl

/-! ## setReg -/

@[simp] theorem State.setReg_regs (r : RegIndex) (v : Byte) : (s.setReg r v).regs = s.regs.set r v := rfl
@[simp] theorem State.setReg_pc (r : RegIndex) (v : Byte) : (s.setReg r v).pc = s.pc := rfl
@[simp] theorem State.setReg_fl (r : RegIndex) (v : Byte) : (s.setReg r v).fl = s.fl := rfl
@[simp] theorem State.setReg_mem (r : RegIndex) (v : Byte) : (s.setReg r v).mem = s.mem := rfl
@[simp] theorem State.setReg_run (r : RegIndex) (v : Byte) : (s.setReg r v).run = s.run := rfl
@[simp] theorem State.setReg_faultCode (r : RegIndex) (v : Byte) : (s.setReg r v).faultCode = s.faultCode := rfl
@[simp] theorem State.setReg_faultPc (r : RegIndex) (v : Byte) : (s.setReg r v).faultPc = s.faultPc := rfl
@[simp] theorem State.setReg_output (r : RegIndex) (v : Byte) : (s.setReg r v).output = s.output := rfl
@[simp] theorem State.setReg_inputs (r : RegIndex) (v : Byte) : (s.setReg r v).inputs = s.inputs := rfl
@[simp] theorem State.setReg_draws (r : RegIndex) (v : Byte) : (s.setReg r v).draws = s.draws := rfl
@[simp] theorem State.setReg_hltEnc (r : RegIndex) (v : Byte) : (s.setReg r v).hltEnc = s.hltEnc := rfl

@[simp] theorem State.setReg_reg (r q : RegIndex) (v : Byte) :
    (s.setReg r v).reg q = if r = q then v else s.reg q := by
  simp [State.reg, Vector.getElem_set, Fin.ext_iff]

/-! ## setPc -/

@[simp] theorem State.setPc_regs (p : PcWord) : (s.setPc p).regs = s.regs := rfl
@[simp] theorem State.setPc_pc (p : PcWord) : (s.setPc p).pc = p := rfl
@[simp] theorem State.setPc_fl (p : PcWord) : (s.setPc p).fl = s.fl := rfl
@[simp] theorem State.setPc_mem (p : PcWord) : (s.setPc p).mem = s.mem := rfl
@[simp] theorem State.setPc_run (p : PcWord) : (s.setPc p).run = s.run := rfl
@[simp] theorem State.setPc_faultCode (p : PcWord) : (s.setPc p).faultCode = s.faultCode := rfl
@[simp] theorem State.setPc_faultPc (p : PcWord) : (s.setPc p).faultPc = s.faultPc := rfl
@[simp] theorem State.setPc_output (p : PcWord) : (s.setPc p).output = s.output := rfl
@[simp] theorem State.setPc_inputs (p : PcWord) : (s.setPc p).inputs = s.inputs := rfl
@[simp] theorem State.setPc_draws (p : PcWord) : (s.setPc p).draws = s.draws := rfl
@[simp] theorem State.setPc_hltEnc (p : PcWord) : (s.setPc p).hltEnc = s.hltEnc := rfl
@[simp] theorem State.setPc_reg (p : PcWord) (q : RegIndex) : (s.setPc p).reg q = s.reg q := rfl

/-! ## advance -/

@[simp] theorem State.advance_regs (n : Nat) : (s.advance n).regs = s.regs := rfl
@[simp] theorem State.advance_pc (n : Nat) : (s.advance n).pc = s.pc + 1 + BitVec.ofNat 9 n := rfl
@[simp] theorem State.advance_fl (n : Nat) : (s.advance n).fl = s.fl := rfl
@[simp] theorem State.advance_mem (n : Nat) : (s.advance n).mem = s.mem := rfl
@[simp] theorem State.advance_run (n : Nat) : (s.advance n).run = s.run := rfl
@[simp] theorem State.advance_faultCode (n : Nat) : (s.advance n).faultCode = s.faultCode := rfl
@[simp] theorem State.advance_faultPc (n : Nat) : (s.advance n).faultPc = s.faultPc := rfl
@[simp] theorem State.advance_output (n : Nat) : (s.advance n).output = s.output := rfl
@[simp] theorem State.advance_inputs (n : Nat) : (s.advance n).inputs = s.inputs := rfl
@[simp] theorem State.advance_draws (n : Nat) : (s.advance n).draws = s.draws := rfl
@[simp] theorem State.advance_hltEnc (n : Nat) : (s.advance n).hltEnc = s.hltEnc := rfl
@[simp] theorem State.advance_reg (n : Nat) (q : RegIndex) : (s.advance n).reg q = s.reg q := rfl

/-! ## setFl -/

@[simp] theorem State.setFl_regs (v : Byte) : (s.setFl v).regs = s.regs := rfl
@[simp] theorem State.setFl_pc (v : Byte) : (s.setFl v).pc = s.pc := rfl
@[simp] theorem State.setFl_fl (v : Byte) : (s.setFl v).fl = v := rfl
@[simp] theorem State.setFl_mem (v : Byte) : (s.setFl v).mem = s.mem := rfl
@[simp] theorem State.setFl_run (v : Byte) : (s.setFl v).run = s.run := rfl
@[simp] theorem State.setFl_faultCode (v : Byte) : (s.setFl v).faultCode = s.faultCode := rfl
@[simp] theorem State.setFl_faultPc (v : Byte) : (s.setFl v).faultPc = s.faultPc := rfl
@[simp] theorem State.setFl_output (v : Byte) : (s.setFl v).output = s.output := rfl
@[simp] theorem State.setFl_inputs (v : Byte) : (s.setFl v).inputs = s.inputs := rfl
@[simp] theorem State.setFl_draws (v : Byte) : (s.setFl v).draws = s.draws := rfl
@[simp] theorem State.setFl_hltEnc (v : Byte) : (s.setFl v).hltEnc = s.hltEnc := rfl
@[simp] theorem State.setFl_reg (v : Byte) (q : RegIndex) : (s.setFl v).reg q = s.reg q := rfl

/-! ## writeMem -/

@[simp] theorem State.writeMem_regs (a v : Byte) : (s.writeMem a v).regs = s.regs := rfl
@[simp] theorem State.writeMem_pc (a v : Byte) : (s.writeMem a v).pc = s.pc := rfl
@[simp] theorem State.writeMem_fl (a v : Byte) : (s.writeMem a v).fl = s.fl := rfl
@[simp] theorem State.writeMem_mem (a v : Byte) : (s.writeMem a v).mem = s.mem.write a v := rfl
@[simp] theorem State.writeMem_run (a v : Byte) : (s.writeMem a v).run = s.run := rfl
@[simp] theorem State.writeMem_faultCode (a v : Byte) : (s.writeMem a v).faultCode = s.faultCode := rfl
@[simp] theorem State.writeMem_faultPc (a v : Byte) : (s.writeMem a v).faultPc = s.faultPc := rfl
@[simp] theorem State.writeMem_output (a v : Byte) : (s.writeMem a v).output = s.output := rfl
@[simp] theorem State.writeMem_inputs (a v : Byte) : (s.writeMem a v).inputs = s.inputs := rfl
@[simp] theorem State.writeMem_draws (a v : Byte) : (s.writeMem a v).draws = s.draws := rfl
@[simp] theorem State.writeMem_hltEnc (a v : Byte) : (s.writeMem a v).hltEnc = s.hltEnc := rfl
@[simp] theorem State.writeMem_reg (a v : Byte) (q : RegIndex) : (s.writeMem a v).reg q = s.reg q := rfl

/-! ## emit -/

@[simp] theorem State.emit_regs (k : OutKind) (v : Byte) : (s.emit k v).regs = s.regs := rfl
@[simp] theorem State.emit_pc (k : OutKind) (v : Byte) : (s.emit k v).pc = s.pc := rfl
@[simp] theorem State.emit_fl (k : OutKind) (v : Byte) : (s.emit k v).fl = s.fl := rfl
@[simp] theorem State.emit_mem (k : OutKind) (v : Byte) : (s.emit k v).mem = s.mem := rfl
@[simp] theorem State.emit_run (k : OutKind) (v : Byte) : (s.emit k v).run = s.run := rfl
@[simp] theorem State.emit_faultCode (k : OutKind) (v : Byte) : (s.emit k v).faultCode = s.faultCode := rfl
@[simp] theorem State.emit_faultPc (k : OutKind) (v : Byte) : (s.emit k v).faultPc = s.faultPc := rfl
@[simp] theorem State.emit_output (k : OutKind) (v : Byte) : (s.emit k v).output = s.output ++ [⟨k, v⟩] := rfl
@[simp] theorem State.emit_inputs (k : OutKind) (v : Byte) : (s.emit k v).inputs = s.inputs := rfl
@[simp] theorem State.emit_draws (k : OutKind) (v : Byte) : (s.emit k v).draws = s.draws := rfl
@[simp] theorem State.emit_hltEnc (k : OutKind) (v : Byte) : (s.emit k v).hltEnc = s.hltEnc := rfl
@[simp] theorem State.emit_reg (k : OutKind) (v : Byte) (q : RegIndex) : (s.emit k v).reg q = s.reg q := rfl

/-! ## setRun -/

@[simp] theorem State.setRun_regs (r : RunState) : (s.setRun r).regs = s.regs := rfl
@[simp] theorem State.setRun_pc (r : RunState) : (s.setRun r).pc = s.pc := rfl
@[simp] theorem State.setRun_fl (r : RunState) : (s.setRun r).fl = s.fl := rfl
@[simp] theorem State.setRun_mem (r : RunState) : (s.setRun r).mem = s.mem := rfl
@[simp] theorem State.setRun_run (r : RunState) : (s.setRun r).run = r := rfl
@[simp] theorem State.setRun_faultCode (r : RunState) : (s.setRun r).faultCode = s.faultCode := rfl
@[simp] theorem State.setRun_faultPc (r : RunState) : (s.setRun r).faultPc = s.faultPc := rfl
@[simp] theorem State.setRun_output (r : RunState) : (s.setRun r).output = s.output := rfl
@[simp] theorem State.setRun_inputs (r : RunState) : (s.setRun r).inputs = s.inputs := rfl
@[simp] theorem State.setRun_draws (r : RunState) : (s.setRun r).draws = s.draws := rfl
@[simp] theorem State.setRun_hltEnc (r : RunState) : (s.setRun r).hltEnc = s.hltEnc := rfl
@[simp] theorem State.setRun_reg (r : RunState) (q : RegIndex) : (s.setRun r).reg q = s.reg q := rfl

/-! ## raiseFault -/

@[simp] theorem State.raiseFault_mem (c : FaultCode) : (s.raiseFault c).mem = Memory.ofFn (Config.cellAfterFault s.draws) := rfl
@[simp] theorem State.raiseFault_run (c : FaultCode) : (s.raiseFault c).run = .fault := rfl
@[simp] theorem State.raiseFault_faultCode (c : FaultCode) : (s.raiseFault c).faultCode = c := rfl
@[simp] theorem State.raiseFault_faultPc (c : FaultCode) : (s.raiseFault c).faultPc = s.pc := rfl
@[simp] theorem State.raiseFault_output (c : FaultCode) : (s.raiseFault c).output = s.output := rfl
@[simp] theorem State.raiseFault_inputs (c : FaultCode) : (s.raiseFault c).inputs = s.inputs := rfl
@[simp] theorem State.raiseFault_draws (c : FaultCode) : (s.raiseFault c).draws = s.draws := rfl
@[simp] theorem State.raiseFault_hltEnc (c : FaultCode) : (s.raiseFault c).hltEnc = s.hltEnc := rfl

/-! ## consume -/

@[simp] theorem State.consume_regs : (s.consume).regs = s.regs := rfl
@[simp] theorem State.consume_pc : (s.consume).pc = s.pc := rfl
@[simp] theorem State.consume_fl : (s.consume).fl = s.fl := rfl
@[simp] theorem State.consume_mem : (s.consume).mem = s.mem := rfl
@[simp] theorem State.consume_run : (s.consume).run = s.run := rfl
@[simp] theorem State.consume_faultCode : (s.consume).faultCode = s.faultCode := rfl
@[simp] theorem State.consume_faultPc : (s.consume).faultPc = s.faultPc := rfl
@[simp] theorem State.consume_output : (s.consume).output = s.output := rfl
@[simp] theorem State.consume_inputs : (s.consume).inputs = s.inputs.tail := rfl
@[simp] theorem State.consume_draws : (s.consume).draws = s.draws + 1 := rfl
@[simp] theorem State.consume_hltEnc : (s.consume).hltEnc = s.hltEnc := rfl
@[simp] theorem State.consume_reg (q : RegIndex) : (s.consume).reg q = s.reg q := rfl

/-! ## afterRst -/

@[simp] theorem State.afterRst_regs : (s.afterRst).regs = State.reset.regs := rfl
@[simp] theorem State.afterRst_pc : (s.afterRst).pc = State.reset.pc := rfl
@[simp] theorem State.afterRst_fl : (s.afterRst).fl = State.reset.fl := rfl
@[simp] theorem State.afterRst_mem : (s.afterRst).mem = State.reset.mem := rfl
@[simp] theorem State.afterRst_run : (s.afterRst).run = State.reset.run := rfl
@[simp] theorem State.afterRst_faultCode : (s.afterRst).faultCode = State.reset.faultCode := rfl
@[simp] theorem State.afterRst_faultPc : (s.afterRst).faultPc = State.reset.faultPc := rfl
@[simp] theorem State.afterRst_output : (s.afterRst).output = State.reset.output := rfl
@[simp] theorem State.afterRst_inputs : (s.afterRst).inputs = s.inputs := rfl
@[simp] theorem State.afterRst_draws : (s.afterRst).draws = s.draws := rfl
@[simp] theorem State.afterRst_hltEnc : (s.afterRst).hltEnc = s.hltEnc := rfl

/-! ## The register file as a whole -/

/-- Register files that agree register by register are equal. -/
theorem State.regs_ext {s t : State} (h : ∀ r, s.reg r = t.reg r) : s.regs = t.regs := by
  apply Vector.ext
  intro i hi
  exact h ⟨i, hi⟩

end Sys2Proof.Machine
end

