-- ==== Sys2Proof/Laws/Memory.lean ====
section
/-! SUPPORT. What reading and writing memory do (`20_memory.md` R41), and that every memory operation
keeps the canonical form. -/

namespace Sys2Proof.Machine

/-! ## Reading -/

@[simp] theorem Memory.read_nil (a : Byte) : Memory.read [] a = 0 := rfl

theorem lookup_cons_if (n k : Nat) (v : Byte) (rest : Memory) :
    List.lookup k ((n, v) :: rest) = if k = n then some v else rest.lookup k := by
  by_cases h : k = n
  · simp [h]
  · simp [List.lookup_cons, beq_false_of_ne h, h]

theorem lookup_filter_ne (m : Memory) (n k : Nat) :
    (m.filter fun c => c.1 != n).lookup k = if k = n then none else m.lookup k := by
  induction m with
  | nil => simp
  | cons c rest ih =>
    obtain ⟨x, v⟩ := c
    by_cases hx : x = n
    · subst hx
      rw [List.filter_cons_of_neg (by simp), ih, lookup_cons_if]
      by_cases hk : k = x <;> simp [hk]
    · by_cases hk : k = x
      · subst hk; simp [hx]
      · simp [lookup_cons_if, ih, hx, hk]

theorem lookup_insertCell (m : Memory) (n k : Nat) (v : Byte) (h : m.lookup n = none) :
    (insertCell (n, v) m).lookup k = if k = n then some v else m.lookup k := by
  induction m with
  | nil => simp [insertCell, lookup_cons_if]
  | cons c rest ih =>
    obtain ⟨x, w⟩ := c
    have hx : n ≠ x := by rintro rfl; simp at h
    have hr : rest.lookup n = none := by simpa only [lookup_cons_if, if_neg hx] using h
    unfold insertCell
    split
    · simp [lookup_cons_if]
    · by_cases hk : k = x
      · subst hk; simp [Ne.symm hx]
      · simp [lookup_cons_if, hk, ih hr]

/-- A read after a write: the byte written at its address, every other cell as before. -/
@[simp] theorem Memory.read_write (m : Memory) (a v b : Byte) :
    (m.write a v).read b = if b = a then v else m.read b := by
  have hab : b.toNat = a.toNat ↔ b = a := BitVec.toNat_inj
  have hnone : (m.filter fun c => c.1 != a.toNat).lookup a.toNat = none := by
    simp [lookup_filter_ne]
  unfold Memory.write Memory.read
  by_cases hv : v = unlistedByte
  · by_cases hb : b = a <;> simp [hv, lookup_filter_ne, hab, hb]
  · by_cases hb : b = a <;> simp [hv, lookup_insertCell _ _ _ _ hnone, lookup_filter_ne, hab, hb]

/-! ## The canonical form -/

theorem Memory.wf_nil : Memory.wf [] := by simp [Memory.wf]

theorem mem_insertCell {c d : Host.Cell} {m : Memory} : d ∈ insertCell c m ↔ d = c ∨ d ∈ m := by
  induction m with
  | nil => simp [insertCell]
  | cons x rest ih =>
    unfold insertCell
    split
    · simp
    · simp only [List.mem_cons, ih]; tauto

theorem insertCell_pairwise {c : Host.Cell} {m : Memory} (h : m.Pairwise fun x y => x.1 < y.1)
    (hc : ∀ d ∈ m, d.1 ≠ c.1) : (insertCell c m).Pairwise fun x y => x.1 < y.1 := by
  induction m with
  | nil => simp [insertCell]
  | cons x rest ih =>
    obtain ⟨hx, hr⟩ := List.pairwise_cons.1 h
    have hne : x.1 ≠ c.1 := hc x (by simp)
    unfold insertCell
    split
    · next hlt =>
      refine List.pairwise_cons.2 ⟨fun d hd => ?_, h⟩
      rcases List.mem_cons.1 hd with rfl | hd
      · exact hlt
      · exact hlt.trans (hx d hd)
    · next hge =>
      refine List.pairwise_cons.2 ⟨fun d hd => ?_, ih hr fun d hd => hc d (by simp [hd])⟩
      rcases mem_insertCell.1 hd with rfl | hd
      · omega
      · exact hx d hd

/-- A write keeps the canonical form. -/
theorem Memory.wf_write {m : Memory} (h : m.wf) (a v : Byte) : (m.write a v).wf := by
  obtain ⟨hp, hm⟩ := h
  have hp' := hp.filter fun c => c.1 != a.toNat
  have hm' : ∀ c ∈ m.filter (fun c => c.1 != a.toNat), c.1 < 256 ∧ c.2 ≠ unlistedByte :=
    fun c hc => hm c (List.mem_of_mem_filter hc)
  unfold Memory.write
  dsimp only
  split
  · exact ⟨hp', hm'⟩
  · next hv =>
    refine ⟨insertCell_pairwise hp' fun d hd => ?_, fun c hc => ?_⟩
    · simpa using (List.mem_filter.1 hd).2
    · rcases mem_insertCell.1 hc with rfl | hc
      · exact ⟨a.isLt, hv⟩
      · exact hm' c hc

/-- The memory of any contents has the canonical form. -/
theorem Memory.wf_ofFn (f : Nat → Byte) : (Memory.ofFn f).wf := by
  constructor
  · unfold Memory.ofFn
    refine List.pairwise_filterMap.2 (List.pairwise_lt_range.imp ?_)
    intro n k hnk c hc d hd
    split at hc <;> split at hd <;> simp_all
    obtain rfl := hc
    obtain rfl := hd
    exact hnk
  · intro c hc
    obtain ⟨n, hn, hc⟩ := List.mem_filterMap.1 hc
    split at hc
    · simp at hc
    · next hv => simp at hc; subst hc; exact ⟨List.mem_range.1 hn, hv⟩

/-- What lies in memory after a run of bytes is written: byte number k at `a + k`, every other cell as before. -/
theorem read_writeBytes (m : Memory) (a c : Byte) (l : List Byte) (h : l.length ≤ 256) :
    (writeBytes m a l).read c = (l[(c - a).toNat]?).getD (m.read c) := by
  induction l generalizing m a with
  | nil => rfl
  | cons v rest ih =>
    rw [List.length_cons] at h
    rw [writeBytes, ih _ _ (by omega), Memory.read_write]
    by_cases hc : c = a
    · have e : (c - (a + 1)).toNat = 255 := by subst hc; bv_omega
      have e' : (c - a).toNat = 0 := by subst hc; bv_omega
      rw [e, e', List.getElem?_eq_none (by omega), if_pos hc]; rfl
    · have e : (c - a).toNat = (c - (a + 1)).toNat + 1 := by bv_omega
      rw [if_neg hc, e, List.getElem?_cons_succ]

/-- Writing a run of bytes keeps the canonical form. -/
theorem wf_writeBytes {m : Memory} (h : m.wf) (a : Byte) (l : List Byte) : (writeBytes m a l).wf := by
  induction l generalizing m a with
  | nil => exact h
  | cons v rest ih => exact ih (Memory.wf_write h a v) _

end Sys2Proof.Machine
end

