-- ==== Sys2Proof/Laws/Operations.lean ====
section
/-! SUPPORT. For each shared operation one lemma that says what it can do; proofs cite it and do not
unfold the operation. -/

namespace Sys2Proof.Machine

/-! ## Operands -/

@[simp] theorem regOf_regByte (r : RegIndex) : regOf (regByte r) = some r := by
  revert r; decide

theorem regOf_eq_some {a : Byte} {r : RegIndex} : regOf a = some r ↔ a = regByte r := by
  constructor
  · intro h
    unfold regOf at h
    split at h
    · obtain rfl := Option.some.inj h; simp [regByte]
    · simp at h
  · rintro rfl; simp

theorem regOf_eq_none {a : Byte} : regOf a = none ↔ isRegByte a = false := by
  unfold regOf
  split <;> simp_all [isRegByte]

@[simp] theorem withReg_regByte (r : RegIndex) (k : RegIndex → Effect) : withReg (regByte r) k = k r := by
  simp [withReg]

@[simp] theorem withRegs_regByte (ra rb : RegIndex) (k : RegIndex → RegIndex → Effect) :
    withRegs (regByte ra) (regByte rb) k = k ra rb := by
  simp [withRegs]

/-- A reg operand is legal and names a register, or the instruction faults (R84). -/
theorem withReg_cases (a : Byte) (k : RegIndex → Effect) :
    (∃ r, a = regByte r ∧ withReg a k = k r) ∨ (isRegByte a = false ∧ withReg a k = .error .regRange) := by
  unfold withReg
  cases h : regOf a with
  | some r => exact .inl ⟨r, regOf_eq_some.1 h, rfl⟩
  | none => exact .inr ⟨regOf_eq_none.1 h, rfl⟩

theorem withReg_eq_ok {a : Byte} {k : RegIndex → Effect} {t : State} :
    withReg a k = .ok t ↔ ∃ r, a = regByte r ∧ k r = .ok t := by
  constructor
  · intro h
    rcases withReg_cases a k with ⟨r, ha, e⟩ | ⟨_, e⟩
    · exact ⟨r, ha, by rw [← e, h]⟩
    · simp [e] at h
  · rintro ⟨r, rfl, h⟩; simpa using h

theorem withReg_eq_error {a : Byte} {k : RegIndex → Effect} {c : FaultCode} :
    withReg a k = .error c ↔
      (∃ r, a = regByte r ∧ k r = .error c) ∨ (isRegByte a = false ∧ c = .regRange) := by
  constructor
  · intro h
    rcases withReg_cases a k with ⟨r, ha, e⟩ | ⟨hn, e⟩
    · exact .inl ⟨r, ha, by rw [← e, h]⟩
    · rw [e] at h; exact .inr ⟨hn, (Except.error.inj h).symm⟩
  · rintro (⟨r, rfl, h⟩ | ⟨hn, rfl⟩)
    · simpa using h
    · simp [withReg, regOf_eq_none.2 hn]

theorem withRegs_eq_ok {a b : Byte} {k : RegIndex → RegIndex → Effect} {t : State} :
    withRegs a b k = .ok t ↔ ∃ ra rb, a = regByte ra ∧ b = regByte rb ∧ k ra rb = .ok t := by
  simp only [withRegs, withReg_eq_ok]
  constructor
  · rintro ⟨ra, ha, rb, hb, h⟩; exact ⟨ra, rb, ha, hb, h⟩
  · rintro ⟨ra, rb, ha, hb, h⟩; exact ⟨ra, ha, rb, hb, h⟩

/-! ## Effects -/

@[simp] theorem Effect.andThen_ok (s : State) (k : State → Effect) : Effect.andThen (.ok s) k = k s := rfl

@[simp] theorem Effect.andThen_error (c : FaultCode) (k : State → Effect) :
    Effect.andThen (.error c) k = .error c := rfl

theorem Effect.andThen_eq_ok {e : Effect} {k : State → Effect} {t : State} :
    e.andThen k = .ok t ↔ ∃ u, e = .ok u ∧ k u = .ok t := by
  cases e <;> simp [Effect.andThen]

theorem Effect.andThen_eq_error {e : Effect} {k : State → Effect} {c : FaultCode} :
    e.andThen k = .error c ↔ e = .error c ∨ ∃ u, e = .ok u ∧ k u = .error c := by
  cases e <;> simp [Effect.andThen]

@[simp] theorem settle_ok (s t : State) : settle s (.ok t) = .next t := rfl

@[simp] theorem settle_error (s : State) (c : FaultCode) : settle s (.error c) = .next (s.raiseFault c) := rfl

/-- An instruction ends in the state of its effect or in its fault, and in nothing else. -/
theorem settle_eq_next {s t : State} {e : Effect} :
    settle s e = .next t ↔ e = .ok t ∨ ∃ c, e = .error c ∧ t = s.raiseFault c := by
  cases e <;> simp [settle, eq_comm]

/-- A fault raised from `s` is one in the sense of Safety.lean. -/
theorem faultsWith_raiseFault (c : FaultCode) (s : State) : FaultsWith c s (.next (s.raiseFault c)) :=
  ⟨_, rfl, rfl, rfl, rfl, rfl⟩

/-! ## The stack -/

/-- All a push can do. -/
theorem pushWith_cases (v : State → Byte) (s : State) :
    (s.reg 7 = 0#8 ∧ pushWith v s = .error .stackRange) ∨
    (s.reg 7 ≠ 0#8 ∧ pushWith v s =
      .ok ((s.setReg 7 (s.reg 7 - 1)).writeMem (s.reg 7 - 1) (v (s.setReg 7 (s.reg 7 - 1))))) := by
  by_cases h : s.reg 7 = 0#8 <;> simp [pushWith, h]

theorem push_of_ne {s : State} (h : s.reg 7 ≠ 0#8) (v : Byte) :
    push v s = .ok ((s.setReg 7 (s.reg 7 - 1)).writeMem (s.reg 7 - 1) v) := by
  simp [push, pushWith, h]

theorem push_of_eq {s : State} (h : s.reg 7 = 0#8) (v : Byte) : push v s = .error .stackRange := by
  simp [push, pushWith, h]

/-- All the second half of a pop can do. -/
theorem stepSpUp_cases (s : State) :
    (s.reg 7 = 255#8 ∧ stepSpUp s = .error .stackRange) ∨
    (s.reg 7 ≠ 255#8 ∧ stepSpUp s = .ok (s.setReg 7 (s.reg 7 + 1))) := by
  by_cases h : s.reg 7 = 255#8 <;> simp [stepSpUp, h]

/-- Memory after the bytes `l` are pushed one after another from the stack pointer `sp`. -/
def pushedMem (m : Memory) (sp : Byte) : List Byte → Memory
  | [] => m
  | v :: rest => pushedMem (m.write (sp - 1) v) (sp - 1) rest

/-- A run of pushes with room for all of them: SP falls by their number, the bytes are written downward,
and nothing else changes. -/
theorem pushAll_ok (l : List Byte) (s : State) (h : l.length ≤ (s.reg 7).toNat) :
    pushAll l s = .ok { s with
      regs := s.regs.set 7 (s.reg 7 - BitVec.ofNat 8 l.length)
      mem := pushedMem s.mem (s.reg 7) l } := by
  induction l generalizing s with
  | nil =>
    have hv : s.regs.set 7 (s.reg 7) = s.regs := by
      simp [State.reg]
    simp [pushAll, pushedMem, hv]
  | cons v rest ih =>
    have hne : s.reg 7 ≠ 0#8 := by
      intro h0; simp [h0] at h
    have hlen : rest.length ≤ (s.reg 7 - 1).toNat := by
      simp only [List.length_cons] at h
      bv_omega
    rw [pushAll, push_of_ne hne, Effect.andThen_ok, ih _ (by simpa using hlen)]
    simp only [State.writeMem_reg, State.setReg_reg, if_true, State.writeMem_regs, State.setReg_regs,
      State.writeMem_mem, State.setReg_mem, pushedMem, List.length_cons]
    have hsp : s.reg 7 - 1#8 - BitVec.ofNat 8 rest.length = s.reg 7 - BitVec.ofNat 8 (rest.length + 1) := by
      simp only [BitVec.ofNat_add]; bv_omega
    simp [State.writeMem, State.setReg]
    rw [hsp]

/-- A run of pushes without room for all of them faults. -/
theorem pushAll_error (l : List Byte) (s : State) (h : (s.reg 7).toNat < l.length) :
    pushAll l s = .error .stackRange := by
  induction l generalizing s with
  | nil => simp at h
  | cons v rest ih =>
    by_cases h0 : s.reg 7 = 0#8
    · simp [pushAll, push_of_eq h0]
    · have hlen : (s.reg 7 - 1).toNat < rest.length := by
        simp only [List.length_cons] at h
        bv_omega
      rw [pushAll, push_of_ne h0, Effect.andThen_ok]
      exact ih _ (by simpa using hlen)

/-- What lies in memory after a run of pushes: the byte pushed as number k is at `sp - 1 - k`, every other
cell is as before. -/
theorem read_pushedMem (m : Memory) (sp c : Byte) (l : List Byte) (h : l.length ≤ 256) :
    (pushedMem m sp l).read c = (l[(sp - 1 - c).toNat]?).getD (m.read c) := by
  induction l generalizing m sp with
  | nil => rfl
  | cons v rest ih =>
    rw [List.length_cons] at h
    rw [pushedMem, ih _ _ (by omega), Memory.read_write]
    by_cases hc : c = sp - 1
    · have e : (sp - 1 - 1 - c).toNat = 255 := by subst hc; bv_omega
      have e' : (sp - 1 - c).toNat = 0 := by subst hc; bv_omega
      rw [e, e', List.getElem?_eq_none (by omega), if_pos hc]; rfl
    · have e : (sp - 1 - c).toNat = (sp - 1 - 1 - c).toNat + 1 := by bv_omega
      rw [if_neg hc, e, List.getElem?_cons_succ]

theorem wf_pushedMem {m : Memory} (h : m.wf) (sp : Byte) (l : List Byte) : (pushedMem m sp l).wf := by
  induction l generalizing m sp with
  | nil => exact h
  | cons v rest ih => exact ih (Memory.wf_write h _ v) _

theorem pushWith_eq_ok {v : State → Byte} {s t : State} :
    pushWith v s = .ok t ↔ s.reg 7 ≠ 0#8 ∧
      t = (s.setReg 7 (s.reg 7 - 1)).writeMem (s.reg 7 - 1) (v (s.setReg 7 (s.reg 7 - 1))) := by
  rcases pushWith_cases v s with ⟨h, e⟩ | ⟨h, e⟩ <;> simp [e, h, eq_comm]

theorem pushWith_eq_error {v : State → Byte} {s : State} {c : FaultCode} :
    pushWith v s = .error c ↔ s.reg 7 = 0#8 ∧ c = .stackRange := by
  rcases pushWith_cases v s with ⟨h, e⟩ | ⟨h, e⟩ <;> simp [e, h, eq_comm]

theorem stepSpUp_eq_ok {s t : State} :
    stepSpUp s = .ok t ↔ s.reg 7 ≠ 255#8 ∧ t = s.setReg 7 (s.reg 7 + 1) := by
  rcases stepSpUp_cases s with ⟨h, e⟩ | ⟨h, e⟩ <;> simp [e, h, eq_comm]

theorem stepSpUp_eq_error {s : State} {c : FaultCode} :
    stepSpUp s = .error c ↔ s.reg 7 = 255#8 ∧ c = .stackRange := by
  rcases stepSpUp_cases s with ⟨h, e⟩ | ⟨h, e⟩ <;> simp [e, h, eq_comm]

/-! ## The poll -/

@[simp] theorem sampleTimer_false (s : State) : sampleTimer false s = s := by
  simp [sampleTimer, State.setReg, State.reg]

@[simp] theorem frameBytes_length (s : State) : (frameBytes s).length = 9 := rfl

/-- No line is selected while nothing is pending: the test of R153 that IS is not 0 (log 13). -/
theorem selectLine_status_zero (im : Byte) : selectLine im 0 = none := by
  simp [selectLine]

/-- No line is selected while every line is disabled. -/
theorem selectLine_mask_zero (is : Byte) : selectLine 0 is = none := by
  simp [selectLine]

/-- What `selectLine` selects, as R153 words it: the least index whose bit is set in IM & IS. -/
theorem selectLine_eq_some {im is : Byte} {i : RegIndex} :
    selectLine im is = some i ↔
      (im &&& is).getLsbD i.val = true ∧ ∀ j < i, (im &&& is).getLsbD j.val = false := by
  have hget : ∀ (k : Nat) (hk : k < lineOrder.length), lineOrder[k] = ⟨k, by simpa [lineOrder] using hk⟩ := by
    decide
  simp only [selectLine, List.find?_eq_some_iff_getElem, BitVec.getLsbD_and, hget]
  constructor
  · rintro ⟨hi, k, hk, rfl, hj⟩
    exact ⟨hi, fun j hlt => by have := hj j.val hlt; rwa [Bool.not_eq_true'] at this⟩
  · rintro ⟨hi, hj⟩
    exact ⟨hi, i.val, by simp [lineOrder], rfl, fun j hlt => by simp [hj ⟨j, by omega⟩ hlt]⟩

end Sys2Proof.Machine
end

