-- ==== Sys2Proof/Laws/Fetch.lean ====
section
/-! SUPPORT. What the fetch sees at `pc`, and that it depends on `pc` and memory alone. -/

namespace Sys2Proof.Machine

theorem pcByte_eq (p : PcWord) : pcByte p = BitVec.ofNat 8 p.toNat := by
  apply BitVec.eq_of_toNat_eq; simp [pcByte]

theorem pcByte_add (p : PcWord) (k : Nat) : pcByte (p + BitVec.ofNat 9 k) = BitVec.ofNat 8 (p.toNat + k) := by
  apply BitVec.eq_of_toNat_eq; simp [pcByte]

/-- The bytes the fetch looks at, by how many of them lie at or below 0xFF. -/
theorem fetchBytes_eq (s : State) :
    fetchBytes s =
      if s.pc.toNat ≤ 0xFD then [byteAt s s.pc, byteAt s (s.pc + 1), byteAt s (s.pc + 2)]
      else if s.pc.toNat = 0xFE then [byteAt s s.pc, byteAt s (s.pc + 1)]
      else if s.pc.toNat = 0xFF then [byteAt s s.pc]
      else [] := by
  have h1 := pcByte_add s.pc 1
  have h2 := pcByte_add s.pc 2
  simp only [fetchBytes, byteAt, pcByte_eq s.pc]
  rw [show s.pc + 1 = s.pc + BitVec.ofNat 9 1 from rfl, show s.pc + 2 = s.pc + BitVec.ofNat 9 2 from rfl, h1, h2]
  simp only [List.map_cons, List.map_nil, List.filter_cons, List.filter_nil, decide_eq_true_eq]
  split_ifs <;> first | omega | rfl

/-- The fetch depends on `pc` and memory alone. -/
theorem fetchBytes_congr {s t : State} (hp : s.pc = t.pc) (hm : s.mem = t.mem) : fetchBytes s = fetchBytes t := by
  simp [fetchBytes, hp, hm]

/-- Code of at most three bytes that lies at `pc` is what the fetch sees, with more bytes after it. -/
theorem fetchBytes_of_codeAt {s : State} {code : List Byte} (h : CodeAt s code) (hl : code.length ≤ 3) :
    ∃ rest, fetchBytes s = code ++ rest := by
  obtain ⟨hlen, hb⟩ := h
  match code, hl with
  | [], _ => exact ⟨_, rfl⟩
  | [a], _ =>
    have h0 := hb 0 (by simp)
    simp at h0 hlen
    refine ⟨(fetchBytes s).drop 1, ?_⟩
    simp [fetchBytes, h0, List.filter_cons, show s.pc.toNat < 256 by omega]
  | [a, b], _ =>
    have h0 := hb 0 (by simp)
    have h1 := hb 1 (by simp)
    simp at h0 h1 hlen
    refine ⟨(fetchBytes s).drop 2, ?_⟩
    simp [fetchBytes, h0, h1, List.filter_cons, show s.pc.toNat < 256 by omega,
      show s.pc.toNat + 1 < 256 by omega]
  | [a, b, c], _ =>
    have h0 := hb 0 (by simp)
    have h1 := hb 1 (by simp)
    have h2 := hb 2 (by simp)
    simp at h0 h1 h2 hlen
    refine ⟨[], ?_⟩
    simp [fetchBytes, h0, h1, h2, show s.pc.toNat < 256 by omega,
      show s.pc.toNat + 1 < 256 by omega, show s.pc.toNat + 2 < 256 by omega]

end Sys2Proof.Machine
end

