-- ==== Sys2Proof/Laws/Exec.lean ====
section
/-! SUPPORT. The inversion of `exec`: an instruction ends in the state of its effect or in its fault. -/

namespace Sys2Proof.Machine

/-- The effect of an instruction before it is settled, instruction by instruction. -/
def effectOf : Instr → State → Effect
  | .hlt, s => .ok (s.setRun .halted)
  | .ldi a imm, s => withReg a fun r => .ok ((s.setReg r imm).advance 2)
  | .prn a, s => withReg a fun r => .ok ((s.emit .prn (s.reg r)).advance 1)
  | .pra a, s => withReg a fun r => .ok ((s.emit .pra (s.reg r)).advance 1)
  | .add a b, s => withRegs a b fun ra rb => .ok ((s.setReg ra (aluAdd (s.reg ra) (s.reg rb))).advance 2)
  | .mul a b, s => withRegs a b fun ra rb => .ok ((s.setReg ra (aluMul (s.reg ra) (s.reg rb))).advance 2)
  | .cmp a b, s => withRegs a b fun ra rb =>
      .ok ((s.setFl (compareFlags s.fl (s.reg ra) (s.reg rb))).advance 2)
  | .and a b, s => withRegs a b fun ra rb => .ok ((s.setReg ra (aluAnd (s.reg ra) (s.reg rb))).advance 2)
  | .or a b, s => withRegs a b fun ra rb => .ok ((s.setReg ra (aluOr (s.reg ra) (s.reg rb))).advance 2)
  | .xor a b, s => withRegs a b fun ra rb => .ok ((s.setReg ra (aluXor (s.reg ra) (s.reg rb))).advance 2)
  | .not a, s => withReg a fun r => .ok ((s.setReg r (aluNot (s.reg r))).advance 1)
  | .shl a b, s => withRegs a b fun ra rb => .ok ((s.setReg ra (aluShl (s.reg ra) (s.reg rb))).advance 2)
  | .shr a b, s => withRegs a b fun ra rb => .ok ((s.setReg ra (aluShr (s.reg ra) (s.reg rb))).advance 2)
  | .mod a b, s => withRegs a b fun ra rb =>
      if s.reg rb = 0x00 then .error .divZero
      else .ok ((s.setReg ra (aluMod (s.reg ra) (s.reg rb))).advance 2)
  | .inc a, s => withReg a fun r => .ok ((s.setReg r (aluInc (s.reg r))).advance 1)
  | .dec a, s => withReg a fun r => .ok ((s.setReg r (aluDec (s.reg r))).advance 1)
  | .push a, s => withReg a fun r => (pushWith (fun s1 => s1.reg r) s).andThen fun s2 => .ok (s2.advance 1)
  | .pop a, s => withReg a fun r =>
      (stepSpUp (s.setReg r (s.mem.read s.sp))).andThen fun s2 => .ok (s2.advance 1)
  | .call a, s => withReg a fun r =>
      if 0xFF < (s.pc + 2).toNat then .error .retaddrRange
      else (push (pcByte (s.pc + 2)) s).andThen fun s2 => .ok (s2.setPc (zext9 (s2.reg r)))
  | .ret, s => (stepSpUp s).andThen fun s2 => .ok (s2.setPc (zext9 (s.mem.read s.sp)))
  | .st a b, s => withRegs a b fun ra rb => .ok ((s.writeMem (s.reg ra) (s.reg rb)).advance 2)
  | .jmp a, s => withReg a fun r => .ok (s.setPc (zext9 (s.reg r)))
  | .jeq a, s => withReg a fun r => .ok (s.setPc (if equalSet s.fl then zext9 (s.reg r) else s.pc + 2))
  | .jne a, s => withReg a fun r => .ok (s.setPc (if !equalSet s.fl then zext9 (s.reg r) else s.pc + 2))

/-- `exec` settles the effect of its instruction. -/
theorem exec_eq_settle (i : Instr) (s : State) : exec i s = settle s (effectOf i s) := by
  cases i <;> rfl

/-- All `exec` can do. -/
theorem exec_eq_next {i : Instr} {s t : State} :
    exec i s = .next t ↔ effectOf i s = .ok t ∨ ∃ c, effectOf i s = .error c ∧ t = s.raiseFault c := by
  rw [exec_eq_settle, settle_eq_next]

/-- An instruction that ends outside FAULT ends in the state of its effect. -/
theorem effectOf_of_exec {i : Instr} {s t : State} (h : exec i s = .next t) (ht : t.run ≠ .fault) :
    effectOf i s = .ok t := by
  rcases exec_eq_next.1 h with h | ⟨c, _, rfl⟩
  · exact h
  · simp at ht

/-! ## What an instruction that does not fault has done -/

/-- The states instructions that do not fault end in. The ALU instructions are kept together by shape:
their value `v` is said by `effectOf`. -/
inductive Ran (s : State) : Instr → State → Prop
  | hlt : Ran s .hlt (s.setRun .halted)
  | ldi (r : RegIndex) (imm : Byte) : Ran s (.ldi (regByte r) imm) ((s.setReg r imm).advance 2)
  | prn (r : RegIndex) : Ran s (.prn (regByte r)) ((s.emit .prn (s.reg r)).advance 1)
  | pra (r : RegIndex) : Ran s (.pra (regByte r)) ((s.emit .pra (s.reg r)).advance 1)
  | unary (mk : Byte → Instr) (hm : mk ∈ [.not, .inc, .dec]) (r : RegIndex) (v : Byte) :
      Ran s (mk (regByte r)) ((s.setReg r v).advance 1)
  | binary (mk : Byte → Byte → Instr) (hm : mk ∈ [.add, .mul, .and, .or, .xor, .shl, .shr, .mod])
      (ra rb : RegIndex) (v : Byte) : Ran s (mk (regByte ra) (regByte rb)) ((s.setReg ra v).advance 2)
  | cmp (ra rb : RegIndex) : Ran s (.cmp (regByte ra) (regByte rb))
      ((s.setFl (compareFlags s.fl (s.reg ra) (s.reg rb))).advance 2)
  | st (ra rb : RegIndex) :
      Ran s (.st (regByte ra) (regByte rb)) ((s.writeMem (s.reg ra) (s.reg rb)).advance 2)
  | push (r : RegIndex) (h : s.reg 7 ≠ 0#8) : Ran s (.push (regByte r))
      (((s.setReg 7 (s.reg 7 - 1)).writeMem (s.reg 7 - 1) ((s.setReg 7 (s.reg 7 - 1)).reg r)).advance 1)
  | pop (r : RegIndex) (h : (s.setReg r (s.mem.read s.sp)).reg 7 ≠ 255#8) : Ran s (.pop (regByte r))
      (((s.setReg r (s.mem.read s.sp)).setReg 7 ((s.setReg r (s.mem.read s.sp)).reg 7 + 1)).advance 1)
  | call (r : RegIndex) (h : s.reg 7 ≠ 0#8) (hp : (s.pc + 2).toNat ≤ 0xFF) : Ran s (.call (regByte r))
      (((s.setReg 7 (s.reg 7 - 1)).writeMem (s.reg 7 - 1) (pcByte (s.pc + 2))).setPc
        (zext9 ((s.setReg 7 (s.reg 7 - 1)).reg r)))
  | ret (h : s.reg 7 ≠ 255#8) :
      Ran s .ret ((s.setReg 7 (s.reg 7 + 1)).setPc (zext9 (s.mem.read s.sp)))
  | jmp (r : RegIndex) : Ran s (.jmp (regByte r)) (s.setPc (zext9 (s.reg r)))
  | jeq (r : RegIndex) :
      Ran s (.jeq (regByte r)) (s.setPc (if equalSet s.fl then zext9 (s.reg r) else s.pc + 2))
  | jne (r : RegIndex) :
      Ran s (.jne (regByte r)) (s.setPc (if !equalSet s.fl then zext9 (s.reg r) else s.pc + 2))

/-- An effect that is a state is one of those. -/
theorem ran_of_effect {i : Instr} {s t : State} (h : effectOf i s = .ok t) : Ran s i t := by
  cases i <;> simp only [effectOf, withReg_eq_ok, withRegs_eq_ok, Effect.andThen_eq_ok, pushWith_eq_ok,
    stepSpUp_eq_ok] at h
  case hlt => cases h; exact .hlt
  case ldi => obtain ⟨r, rfl, h⟩ := h; cases h; exact .ldi _ _
  case prn => obtain ⟨r, rfl, h⟩ := h; cases h; exact .prn _
  case pra => obtain ⟨r, rfl, h⟩ := h; cases h; exact .pra _
  case not => obtain ⟨r, rfl, h⟩ := h; cases h; exact .unary .not (by simp) _ _
  case inc => obtain ⟨r, rfl, h⟩ := h; cases h; exact .unary .inc (by simp) _ _
  case dec => obtain ⟨r, rfl, h⟩ := h; cases h; exact .unary .dec (by simp) _ _
  case cmp => obtain ⟨ra, rb, rfl, rfl, h⟩ := h; cases h; exact .cmp _ _
  case st => obtain ⟨ra, rb, rfl, rfl, h⟩ := h; cases h; exact .st _ _
  case add => obtain ⟨ra, rb, rfl, rfl, h⟩ := h; cases h; exact .binary .add (by simp) _ _ _
  case mul => obtain ⟨ra, rb, rfl, rfl, h⟩ := h; cases h; exact .binary .mul (by simp) _ _ _
  case and => obtain ⟨ra, rb, rfl, rfl, h⟩ := h; cases h; exact .binary .and (by simp) _ _ _
  case or => obtain ⟨ra, rb, rfl, rfl, h⟩ := h; cases h; exact .binary .or (by simp) _ _ _
  case xor => obtain ⟨ra, rb, rfl, rfl, h⟩ := h; cases h; exact .binary .xor (by simp) _ _ _
  case shl => obtain ⟨ra, rb, rfl, rfl, h⟩ := h; cases h; exact .binary .shl (by simp) _ _ _
  case shr => obtain ⟨ra, rb, rfl, rfl, h⟩ := h; cases h; exact .binary .shr (by simp) _ _ _
  case mod =>
    obtain ⟨ra, rb, rfl, rfl, h⟩ := h
    split at h <;> cases h
    exact .binary .mod (by simp) _ _ _
  case push => obtain ⟨r, rfl, u, ⟨h7, rfl⟩, h⟩ := h; cases h; exact .push _ h7
  case pop => obtain ⟨r, rfl, u, ⟨h7, rfl⟩, h⟩ := h; cases h; exact .pop _ h7
  case call =>
    obtain ⟨r, rfl, h⟩ := h
    split at h
    · cases h
    · next hp =>
      obtain ⟨u, hu, h⟩ := Effect.andThen_eq_ok.1 h
      obtain ⟨h7, rfl⟩ := pushWith_eq_ok.1 hu
      cases h
      exact .call _ h7 (by omega)
  case ret => obtain ⟨u, ⟨h7, rfl⟩, h⟩ := h; cases h; exact .ret h7
  case jmp => obtain ⟨r, rfl, h⟩ := h; cases h; exact .jmp _
  case jeq => obtain ⟨r, rfl, h⟩ := h; cases h; exact .jeq _
  case jne => obtain ⟨r, rfl, h⟩ := h; cases h; exact .jne _

/-- An instruction that ends outside FAULT has done what `Ran` says. -/
theorem ran_of_exec {i : Instr} {s t : State} (h : exec i s = .next t) (ht : t.run ≠ .fault) : Ran s i t :=
  ran_of_effect (effectOf_of_exec h ht)

/-- The codes of the faults instructions raise. -/
theorem effectOf_error_code {i : Instr} {s : State} {c : FaultCode} (h : effectOf i s = .error c) :
    c = .regRange ∨ c = .divZero ∨ c = .stackRange ∨ c = .retaddrRange := by
  cases i <;> simp only [effectOf, withRegs, withReg_eq_error, Effect.andThen_eq_error,
    pushWith_eq_error, stepSpUp_eq_error] at h
  case call => split at h <;> grind [pushWith_eq_error, Effect.andThen_eq_error, push]
  all_goals grind

end Sys2Proof.Machine
end

