-- ==== Sys2Proof/Laws/PerInstr.lean ====
section
/-! SUPPORT. Per-instruction families. `OpcodeFields` is `30_encoding.md` R69 (a), (b): the two high bits
of each opcode byte are the operand count, and bit 4 is set for exactly the instructions that write `pc`
themselves (for HLT bit 4 has no effect, R65). -/

namespace Sys2Proof.Laws.OpcodeFields

open Sys2Proof.Machine

/-- The fields of the opcode byte agree with the instruction, for every legal HLT_ENC. -/
def Statement (i : Instr) : Prop :=
  ∀ h : Byte, HltEncOk h → ∃ ir operands, encodeWith h i = ir :: operands ∧
    operands.length = operandBytes i ∧ operandCount ir = operandBytes i ∧
    (i ≠ .hlt → directPcSet ir = writesPcItself i)

theorem hlt : Statement .hlt := fun h hh => ⟨h, [], rfl, rfl, by simp [operandCount, hh.1, operandBytes], by simp⟩
theorem ldi (a b : Byte) : Statement (.ldi a b) := fun _ _ => ⟨_, _, rfl, rfl, rfl, fun _ => rfl⟩
theorem prn (a : Byte) : Statement (.prn a) := fun _ _ => ⟨_, _, rfl, rfl, rfl, fun _ => rfl⟩
theorem pra (a : Byte) : Statement (.pra a) := fun _ _ => ⟨_, _, rfl, rfl, rfl, fun _ => rfl⟩
theorem add (a b : Byte) : Statement (.add a b) := fun _ _ => ⟨_, _, rfl, rfl, rfl, fun _ => rfl⟩
theorem mul (a b : Byte) : Statement (.mul a b) := fun _ _ => ⟨_, _, rfl, rfl, rfl, fun _ => rfl⟩
theorem cmp (a b : Byte) : Statement (.cmp a b) := fun _ _ => ⟨_, _, rfl, rfl, rfl, fun _ => rfl⟩
theorem and (a b : Byte) : Statement (.and a b) := fun _ _ => ⟨_, _, rfl, rfl, rfl, fun _ => rfl⟩
theorem or (a b : Byte) : Statement (.or a b) := fun _ _ => ⟨_, _, rfl, rfl, rfl, fun _ => rfl⟩
theorem xor (a b : Byte) : Statement (.xor a b) := fun _ _ => ⟨_, _, rfl, rfl, rfl, fun _ => rfl⟩
theorem not (a : Byte) : Statement (.not a) := fun _ _ => ⟨_, _, rfl, rfl, rfl, fun _ => rfl⟩
theorem shl (a b : Byte) : Statement (.shl a b) := fun _ _ => ⟨_, _, rfl, rfl, rfl, fun _ => rfl⟩
theorem shr (a b : Byte) : Statement (.shr a b) := fun _ _ => ⟨_, _, rfl, rfl, rfl, fun _ => rfl⟩
theorem mod (a b : Byte) : Statement (.mod a b) := fun _ _ => ⟨_, _, rfl, rfl, rfl, fun _ => rfl⟩
theorem inc (a : Byte) : Statement (.inc a) := fun _ _ => ⟨_, _, rfl, rfl, rfl, fun _ => rfl⟩
theorem dec (a : Byte) : Statement (.dec a) := fun _ _ => ⟨_, _, rfl, rfl, rfl, fun _ => rfl⟩
theorem push (a : Byte) : Statement (.push a) := fun _ _ => ⟨_, _, rfl, rfl, rfl, fun _ => rfl⟩
theorem pop (a : Byte) : Statement (.pop a) := fun _ _ => ⟨_, _, rfl, rfl, rfl, fun _ => rfl⟩
theorem call (a : Byte) : Statement (.call a) := fun _ _ => ⟨_, _, rfl, rfl, rfl, fun _ => rfl⟩
theorem ret : Statement .ret := fun _ _ => ⟨_, _, rfl, rfl, rfl, fun _ => rfl⟩
theorem st (a b : Byte) : Statement (.st a b) := fun _ _ => ⟨_, _, rfl, rfl, rfl, fun _ => rfl⟩
theorem jmp (a : Byte) : Statement (.jmp a) := fun _ _ => ⟨_, _, rfl, rfl, rfl, fun _ => rfl⟩
theorem jeq (a : Byte) : Statement (.jeq a) := fun _ _ => ⟨_, _, rfl, rfl, rfl, fun _ => rfl⟩
theorem jne (a : Byte) : Statement (.jne a) := fun _ _ => ⟨_, _, rfl, rfl, rfl, fun _ => rfl⟩

end Sys2Proof.Laws.OpcodeFields
end

