-- ==== Sys2Proof/Laws/Step.lean ====
section
/-! SUPPORT. The inversions of the interrupt poll, of fetch and execute, and of `step`: all each can do. -/

namespace Sys2Proof.Machine

/-! ## The poll -/

/-- Interrupt entry with room for the frame. -/
theorem interruptEntry_of_room (i : RegIndex) (s : State) (h : 9 ≤ s.sp.toNat) :
    interruptEntry i s = .ok { s with
      regs := (s.regs.set 6 0x00).set 7 (s.sp - 9)
      mem := pushedMem s.mem s.sp (frameBytes (s.setReg 6 0))
      pc := zext9 ((pushedMem s.mem s.sp (frameBytes (s.setReg 6 0))).read (vectorAddress i)) } := by
  simp only [interruptEntry]
  rw [pushAll_ok _ _ (by simpa using h)]
  simp [State.setPc]

/-- Interrupt entry without room for the frame. -/
theorem interruptEntry_of_no_room (i : RegIndex) (s : State) (h : s.sp.toNat < 9) :
    interruptEntry i s = .error .stackRange := by
  simp only [interruptEntry]
  rw [pushAll_error _ _ (by simpa using h)]
  simp

/-- All the poll can do. -/
theorem interruptPoll_cases (tmr : Bool) (s : State) :
    (selectLine (sampleTimer tmr s).im (sampleTimer tmr s).is = none ∧
      interruptPoll tmr s = .ok (sampleTimer tmr s)) ∨
    ∃ i, selectLine (sampleTimer tmr s).im (sampleTimer tmr s).is = some i ∧
      interruptPoll tmr s = interruptEntry i (sampleTimer tmr s) := by
  unfold interruptPoll
  dsimp only
  split
  · next i h => exact .inr ⟨i, h, rfl⟩
  · next h => exact .inl ⟨h, rfl⟩

/-- The only fault of the poll. -/
theorem interruptPoll_error {tmr : Bool} {s : State} {c : FaultCode} (h : interruptPoll tmr s = .error c) :
    c = .stackRange := by
  rcases interruptPoll_cases tmr s with ⟨_, e⟩ | ⟨i, _, e⟩
  · rw [e] at h; cases h
  · rw [e] at h
    by_cases h9 : 9 ≤ (sampleTimer tmr s).sp.toNat
    · rw [interruptEntry_of_room _ _ h9] at h; cases h
    · rw [interruptEntry_of_no_room _ _ (by omega)] at h; cases h; rfl

/-! ## Fetch, execute, step -/

/-- All fetch and execute can do. -/
theorem fetchExecute_cases {s t : State} (h : fetchExecute s = .next t) :
    (∃ i rest, decodeWith s.hltEnc (fetchBytes s) = .ok (i, rest) ∧ exec i s = .next t) ∨
    ∃ r, decodeWith s.hltEnc (fetchBytes s) = .error r ∧ t = s.raiseFault (rejectFault r) := by
  unfold fetchExecute at h
  split at h
  · next i r e => exact .inl ⟨i, r, e, h⟩
  · next r e => cases h; exact .inr ⟨r, e, rfl⟩

/-- A RUNNING step without `rst` inside memory is one iteration: the poll, then fetch and execute in the
state it leaves, or the end in its fault. -/
theorem step_of_iterates {s : State} (h : Iterates s) :
    (∀ u, interruptPoll s.pins.tmr s.consume = .ok u → step s = fetchExecute u) ∧
    (∀ c, interruptPoll s.pins.tmr s.consume = .error c → step s = .next (s.consume.raiseFault c)) := by
  have hp : ¬ 0xFF < s.consume.pc.toNat := by have := h.2.2; simp; omega
  have e : step s = iteration s.pins.tmr s.consume := by simp [step, stepOnce, h.1, h.2.1]
  constructor <;> intro _ hu <;> rw [e, iteration, if_neg hp, hu]

/-- All a step can do. -/
theorem step_cases {s t : State} (h : step s = .next t) :
    (s.pins.rst = true ∧ t = s.consume.afterRst) ∨
    (s.pins.rst = false ∧ s.run = .loading ∧ t = loadPhase s.pins s.consume) ∨
    (s.pins.rst = false ∧ s.run = .running ∧ 0xFF < s.pc.toNat ∧ t = s.consume.setRun .pcPastEnd) ∨
    (Iterates s ∧ t = s.consume.raiseFault .stackRange) ∨
    (Iterates s ∧ ∃ u, interruptPoll s.pins.tmr s.consume = .ok u ∧ fetchExecute u = .next t) ∨
    (s.pins.rst = false ∧ s.run.terminal = true ∧ t = s.consume) := by
  unfold step stepOnce at h
  dsimp only at h
  split at h
  · next hr => cases h; exact .inl ⟨hr, rfl⟩
  · next hr =>
    have hr' : s.pins.rst = false := by simpa using hr
    split at h
    · next e => cases h; exact .inr (.inl ⟨hr', e, rfl⟩)
    · next e =>
      unfold iteration at h
      split at h
      · next hp => cases h; exact .inr (.inr (.inl ⟨hr', e, hp, rfl⟩))
      · next hp =>
        have hi : Iterates s := ⟨e, hr', by simpa using hp⟩
        split at h
        · next u hu => exact .inr (.inr (.inr (.inr (.inl ⟨hi, u, hu, h⟩))))
        · next c hc =>
          obtain rfl := interruptPoll_error hc
          cases h
          exact .inr (.inr (.inr (.inl ⟨hi, rfl⟩)))
    all_goals next e => cases h; exact .inr (.inr (.inr (.inr (.inr ⟨hr', by rw [e]; rfl, rfl⟩))))

/-! ## Runs of several steps -/

theorem run_succ (M : Host.Core) {k : Nat} {s t : M.State} (h : M.step s = .next t) :
    M.run (k + 1) s = M.run k t := by
  rw [Host.Core.run, h]

/-- One step of a run of the machine. -/
theorem core_run_succ {k : Nat} {s t : State} (h : step s = .next t) : core.run (k + 1) s = core.run k t :=
  run_succ core h

end Sys2Proof.Machine
end

