-- ==== Sys2Proof/Laws/Ports.lean ====
section
/-! SUPPORT. What the output pins show of a step. -/

namespace Sys2Proof.Machine

/-! ## The event of a step -/

/-- A step that leaves the output stream has no event. -/
theorem emitted_of_output_eq {s t : State} (h : t.output = s.output) : emitted s t = none := by
  simp [emitted, h]

/-- A step that appends one event has that event. -/
theorem emitted_of_output_append {s t : State} {e : OutEvent} (h : t.output = s.output ++ [e]) :
    emitted s t = some e := by
  simp [emitted, h]

/-- A step that empties the output stream, as `rst` does, has no event. -/
theorem emitted_of_output_nil {s t : State} (h : t.output = []) : emitted s t = none := by
  simp [emitted, h]

/-! ## The pins -/

@[simp] theorem outPins_run (s t : State) : (outPins s t).run = t.run := rfl
@[simp] theorem outPins_faultCode (s t : State) : (outPins s t).faultCode = t.faultCode.bits := rfl
@[simp] theorem outPins_faultPc (s t : State) : (outPins s t).faultPc = t.faultPc := rfl
@[simp] theorem outPins_outValid (s t : State) : (outPins s t).outValid = (emitted s t).isSome := rfl

theorem outPins_outKind {s t : State} {e : OutEvent} (h : emitted s t = some e) :
    (outPins s t).outKind = e.kind.bit := by
  simp [outPins, h]

theorem outPins_outData {s t : State} {e : OutEvent} (h : emitted s t = some e) :
    (outPins s t).outData = e.value := by
  simp [outPins, h]

/-! ## The instructions -/

/-- What an instruction does to the output stream: PRN and PRA append one event, every other instruction and
every fault leave it. -/
theorem exec_output_cases {i : Instr} {s t : State} (h : exec i s = .next t) :
    (∃ r, i = .prn (regByte r) ∧ t.output = s.output ++ [⟨.prn, s.reg r⟩]) ∨
    (∃ r, i = .pra (regByte r) ∧ t.output = s.output ++ [⟨.pra, s.reg r⟩]) ∨
    (((∀ a, i ≠ .prn a) ∧ (∀ a, i ≠ .pra a) ∨ t.run = .fault) ∧ t.output = s.output) := by
  rcases exec_eq_next.1 h with h | ⟨c, -, rfl⟩
  · cases ran_of_effect h with
    | prn r => exact .inl ⟨r, rfl, rfl⟩
    | pra r => exact .inr (.inl ⟨r, rfl, rfl⟩)
    | unary mk hm r v =>
      refine .inr (.inr ⟨.inl ?_, rfl⟩)
      simp only [List.mem_cons, List.not_mem_nil, or_false] at hm
      rcases hm with rfl | rfl | rfl <;> simp
    | binary mk hm ra rb v =>
      refine .inr (.inr ⟨.inl ?_, rfl⟩)
      simp only [List.mem_cons, List.not_mem_nil, or_false] at hm
      rcases hm with rfl | rfl | rfl | rfl | rfl | rfl | rfl | rfl <;> simp
    | _ => exact .inr (.inr ⟨.inl (by simp), rfl⟩)
  · exact .inr (.inr ⟨.inr rfl, rfl⟩)

end Sys2Proof.Machine
end

