-- ==== Sys2Proof/Tests/Slice0.lean ====
section
/-! SUPPORT. The model's own tests. The words are written out from the table of `30_encoding.md` R64, the
one-step results come from `95_test_vectors.md` (the id is in each docstring), and the last part has a
witness for each statement with hypotheses. -/

namespace Sys2Proof.Machine.Tests

/-! ## Helpers -/

/-- A RUNNING state with bytes at `pc`; its next input sample is a quiet host with the given `tmr`. -/
def running (pc : PcWord) (code : List Byte) (regs : List (RegIndex × Byte)) (fl : Byte := 0x00)
    (tmr : Bool := false) : State :=
  { State.reset with
    regs := regs.foldl (fun v r => v.set r.1 r.2) State.reset.regs
    pc := pc
    fl := fl
    mem := writeBytes [] (pcByte pc) code
    run := .running
    inputs := [quietPins tmr] }

/-- `s` with more bytes in memory. -/
def withBytes (s : State) (a : Byte) (l : List Byte) : State := { s with mem := writeBytes s.mem a l }

/-- The step answers a next state of which `p` holds. -/
def after (o : StepResult) (p : State → Bool) : Bool :=
  match o with
  | .next t => p t
  | .fault _ | .refused _ => false

/-- The step answers the fault `c` at `pc`. -/
def faults (o : StepResult) (c : FaultCode) (pc : PcWord) : Bool :=
  after o fun t => decide (t.run = .fault ∧ t.faultCode = c ∧ t.faultPc = pc)

/-! ## WellFormed refuses -/

theorem test_wf_refuses_first_operand : (Instr.ldi 0x08 0x05).wf = false := by decide
theorem test_wf_refuses_second_operand : (Instr.mod 0x01 0xFF).wf = false := by decide
theorem test_wf_refuses_single_operand : (Instr.jeq 0x09).wf = false := by decide
theorem test_wf_allows_every_immediate : (Instr.ldi 0x00 0xFF).wf = true := by decide
theorem test_hltEnc_refuses_operand_count : ¬ HltEncOk 0x41 := by decide
theorem test_hltEnc_refuses_ret : ¬ HltEncOk 0x11 := by decide
theorem test_hltEnc_allows_bounds : HltEncOk 0x00 ∧ HltEncOk 0x3F ∧ HltEncOk hltEncDefault := by decide

/-! ## Decoding of words written out from R64 -/

theorem test_decode_direct :
    decode [0b00000001] = .ok (.hlt, []) ∧
    decode [0b10000010, 0b00000011, 0b11111111] = .ok (.ldi 3 0xFF, []) ∧
    decode [0b01000111, 0b00000101] = .ok (.prn 5, []) ∧
    decode [0b01001000, 0b00000110] = .ok (.pra 6, []) ∧
    decode [0b10000100, 0b00000001, 0b00000010] = .ok (.st 1 2, []) := by decide

theorem test_decode_alu_two_operands :
    decode [0b10100000, 1, 2] = .ok (.add 1 2, []) ∧ decode [0b10100010, 1, 2] = .ok (.mul 1 2, []) ∧
    decode [0b10100111, 1, 2] = .ok (.cmp 1 2, []) ∧ decode [0b10101000, 1, 2] = .ok (.and 1 2, []) ∧
    decode [0b10101010, 1, 2] = .ok (.or 1 2, []) ∧ decode [0b10101011, 1, 2] = .ok (.xor 1 2, []) ∧
    decode [0b10101100, 1, 2] = .ok (.shl 1 2, []) ∧ decode [0b10101101, 1, 2] = .ok (.shr 1 2, []) ∧
    decode [0b10100100, 1, 2] = .ok (.mod 1 2, []) := by decide

theorem test_decode_alu_one_operand :
    decode [0b01101001, 4] = .ok (.not 4, []) ∧ decode [0b01100101, 4] = .ok (.inc 4, []) ∧
    decode [0b01100110, 4] = .ok (.dec 4, []) := by decide

theorem test_decode_stack :
    decode [0b01000101, 7] = .ok (.push 7, []) ∧ decode [0b01000110, 7] = .ok (.pop 7, []) ∧
    decode [0b01010000, 1] = .ok (.call 1, []) ∧ decode [0b00010001, 9] = .ok (.ret, [9]) := by decide

theorem test_decode_jumps :
    decode [0b01010100, 2] = .ok (.jmp 2, []) ∧ decode [0b01010101, 2] = .ok (.jeq 2, []) ∧
    decode [0b01010110, 2] = .ok (.jne 2, []) := by decide

/-- A register operand above 7 decodes; the check is the instruction's (R84). -/
theorem test_decode_keeps_operand_byte : decode [0b10100000, 0x08, 0xFF] = .ok (.add 0x08 0xFF, []) := by decide

theorem test_decode_refuses_by_name :
    decode [0x00] = .error .illegalOpcode ∧ decode [0b00010011] = .error .illegalOpcode ∧
    decode [0b11000000] = .error .illegalOpcode ∧ decode [0b10000000, 0, 0] = .error .illegalOpcode ∧
    decode [0b10000000] = .error .truncated ∧ decode [0b01000111] = .error .truncated ∧
    decode [] = .error .truncated := by decide

/-- With another HLT_ENC the byte 0x01 is no instruction. -/
theorem test_decode_other_hltEnc :
    decodeWith 0x3F [0x3F] = .ok (.hlt, []) ∧ decodeWith 0x3F [0x01] = .error .illegalOpcode := by decide

/-- The host's numbering: bit 0 is the least significant bit of the first byte. -/
theorem test_decodeTableWord :
    decodeTableWord 24 0x050382 = some (.ldi 3 5) ∧ decodeTableWord 8 0x82 = some (.ldi 0 0) ∧
    decodeTableWord 16 0x0247 = some (.prn 2) ∧ decodeTableWord 8 0x01 = some .hlt ∧
    decodeTableWord 8 0x00 = none := by decide

/-- The very next step runs the instruction placed in the reset state, for each family. -/
theorem test_withFetchWord :
    (after (step (State.reset.withFetchWord 24 0x050382)) fun t => decide (t.reg 3 = 5 ∧ t.pc = 3)) = true ∧
    (after (step (State.reset.withFetchWord 24 0x0707A0)) fun t => decide (t.reg 7 = 0xE8 ∧ t.pc = 3)) = true ∧
    (after (step (State.reset.withFetchWord 16 0x0745)) fun t => decide (t.mem.read 0xF3 = 0xF3 ∧ t.pc = 2)) = true ∧
    (after (step (State.reset.withFetchWord 16 0x0754)) fun t => decide (t.pc = 0x0F4)) = true ∧
    (after (step (State.reset.withFetchWord 8 0x11)) fun t => decide (t.pc = 0x000 ∧ t.reg 7 = 0xF5)) = true ∧
    (after (step (State.reset.withFetchWord 8 0x01)) fun t => decide (t.run = .halted)) = true := by decide

/-! ## One step -/

/-- S1, iterations 1 to 3, each from its own state. -/
theorem test_ldi : after (step (running 0 [0x82, 0x00, 0x08] [])) (fun t => decide (t.reg 0 = 8 ∧ t.pc = 3)) := by decide
theorem test_prn : after (step (running 3 [0x47, 0x00] [(0, 8)]))
    (fun t => decide (t.output = [⟨.prn, 8⟩] ∧ t.pc = 5)) := by decide
/-- VC2. -/
theorem test_hlt_at_top : after (step (running 0xFF [0x01] [])) (fun t => decide (t.run = .halted ∧ t.pc = 0xFF)) := by decide
/-- VC22. -/
theorem test_pra : after (step (running 0 [0x48, 0x03] [(3, 0x21)]))
    (fun t => decide (t.output = [⟨.pra, 0x21⟩] ∧ t.pc = 2)) := by decide
/-- VC21. -/
theorem test_st_over_itself : after (step (running 0x10 [0x84, 0x00, 0x01] [(0, 0x10), (1, 0x01)]))
    (fun t => decide (t.mem.read 0x10 = 1 ∧ t.pc = 0x13)) := by decide
/-- VC19. -/
theorem test_st_operand_order : after (step (running 0 [0x84, 0x01, 0x00] [(1, 0xF7), (0, 0x20)]))
    (fun t => decide (t.mem.read 0xF7 = 0x20)) := by decide

/-- Table A of the vectors. -/
theorem test_add : after (step (running 0 [0xA0, 0x00, 0x01] [(0, 200), (1, 100)]))
    (fun t => decide (t.reg 0 = 44 ∧ t.reg 1 = 100 ∧ t.fl = 0)) := by decide
theorem test_mul : after (step (running 0 [0xA2, 0x02, 0x02] [(2, 0x11)])) (fun t => decide (t.reg 2 = 0x21)) := by decide
theorem test_and : after (step (running 0 [0xA8, 0x00, 0x01] [(0, 0xF0), (1, 0x3C)])) (fun t => decide (t.reg 0 = 0x30)) := by decide
theorem test_or : after (step (running 0 [0xAA, 0x00, 0x01] [(0, 0xF0), (1, 0x3C)])) (fun t => decide (t.reg 0 = 0xFC)) := by decide
theorem test_xor : after (step (running 0 [0xAB, 0x00, 0x01] [(0, 0xF0), (1, 0x3C)])) (fun t => decide (t.reg 0 = 0xCC)) := by decide
theorem test_not : after (step (running 0 [0x69, 0x04] [(4, 0xA5)])) (fun t => decide (t.reg 4 = 0x5A ∧ t.pc = 2)) := by decide
theorem test_shl : after (step (running 0 [0xAC, 0x00, 0x00] [(0, 3)])) (fun t => decide (t.reg 0 = 24)) := by decide
theorem test_shl_by_255 : after (step (running 0 [0xAC, 0x00, 0x01] [(0, 0xFF), (1, 255)])) (fun t => decide (t.reg 0 = 0)) := by decide
theorem test_shr : after (step (running 0 [0xAD, 0x00, 0x01] [(0, 0x81), (1, 1)])) (fun t => decide (t.reg 0 = 0x40)) := by decide
theorem test_shr_by_8 : after (step (running 0 [0xAD, 0x00, 0x01] [(0, 0xFF), (1, 8)])) (fun t => decide (t.reg 0 = 0)) := by decide
theorem test_mod : after (step (running 0 [0xA4, 0x01, 0x00] [(1, 10), (0, 3)])) (fun t => decide (t.reg 1 = 1)) := by decide
theorem test_mod_by_zero : faults (step (running 0x20 [0xA4, 0x00, 0x01] [(0, 9)])) .divZero 0x20 := by decide
theorem test_inc : after (step (running 0 [0x65, 0x07] [(7, 0xFF)])) (fun t => decide (t.reg 7 = 0 ∧ t.run = .running)) := by decide
theorem test_dec : after (step (running 0 [0x66, 0x00] [])) (fun t => decide (t.reg 0 = 0xFF)) := by decide
/-- Table B. -/
theorem test_cmp_is_unsigned : after (step (running 0 [0xA7, 0x00, 0x01] [(0, 0xFF), (1, 1)])) (fun t => decide (t.fl = 0x40)) := by decide
theorem test_cmp_is_sticky : after (step (running 0 [0xA7, 0x00, 0x01] [(0, 3), (1, 5)] 0x80)) (fun t => decide (t.fl = 0xA0)) := by decide

/-- VD1, VD3. -/
theorem test_push : after (step (running 0 [0x45, 0x01] [(1, 0x0C)]))
    (fun t => decide (t.reg 7 = 0xF3 ∧ t.mem.read 0xF3 = 0x0C ∧ t.pc = 2)) := by decide
theorem test_push_full : faults (step (running 0x10 [0x45, 0x01] [(7, 0)])) .stackRange 0x10 := by decide
/-- VD9, VD6. -/
theorem test_pop_r7 : after (step (withBytes (running 0 [0x46, 0x07] [(7, 0x10)]) 0x10 [0x40]))
    (fun t => decide (t.reg 7 = 0x41)) := by decide
theorem test_pop_empty : faults (step (running 0 [0x46, 0x01] [(7, 0xFF)])) .stackRange 0 := by decide
/-- VD15, VD14. -/
theorem test_call : after (step (running 0xFD [0x50, 0x01] [(1, 0x0C)]))
    (fun t => decide (t.mem.read 0xF3 = 0xFF ∧ t.reg 7 = 0xF3 ∧ t.pc = 0x0C)) := by decide
theorem test_call_at_top : faults (step (running 0xFE [0x50, 0x01] [(7, 0)])) .retaddrRange 0xFE := by decide
/-- VD18, VD19. -/
theorem test_ret : after (step (withBytes (running 0x16 [0x11] [(7, 0xF3)]) 0xF3 [0x08]))
    (fun t => decide (t.pc = 8 ∧ t.reg 7 = 0xF4)) := by decide
theorem test_ret_empty : faults (step (running 0x16 [0x11] [(7, 0xFF)])) .stackRange 0x16 := by decide

/-- VE2, VE4, VE6, VE7, VE8. -/
theorem test_jmp : after (step (running 0 [0x54, 0x00] [(0, 0xFF)])) (fun t => decide (t.pc = 0xFF)) := by decide
theorem test_jeq_taken : after (step (running 0x10 [0x55, 0x02] [(2, 9)] 0xC0)) (fun t => decide (t.pc = 9)) := by decide
theorem test_jeq_at_top : after (step (running 0xFE [0x55, 0x02] [])) (fun t => decide (t.pc = 0x100 ∧ t.run = .running)) := by decide
theorem test_jne_taken : after (step (running 0x10 [0x56, 0x02] [(2, 9)] 0x60)) (fun t => decide (t.pc = 9)) := by decide
theorem test_jne_not_taken : after (step (running 0x10 [0x56, 0x02] [(2, 9)] 0x80)) (fun t => decide (t.pc = 0x12)) := by decide

/-- VC1, VC4, VC10, VC11, VC8. -/
theorem test_run_off : after (step (running 0x100 [] [(5, 1)] 0 true))
    (fun t => decide (t.run = .pcPastEnd ∧ t.reg 6 = 0)) := by decide
theorem test_fetch_range : faults (step (running 0xFF [0x47] [])) .fetchRange 0xFF := by decide
theorem test_count_three_first : faults (step (running 0xFF [0xC0] [])) .illegalOpcode 0xFF := by decide
theorem test_fetch_before_table : faults (step (running 0xFF [0x80] [])) .fetchRange 0xFF := by decide
theorem test_zero_is_illegal : faults (step (running 0x10 [] [])) .illegalOpcode 0x10 := by decide
/-- VC15, VC17. -/
theorem test_register_check_not_taken : faults (step (running 0 [0x55, 0x09] [])) .regRange 0 := by decide
theorem test_register_check_first : faults (step (running 0 [0xA4, 0x09, 0x01] [])) .regRange 0 := by decide

/-- VF4: the frame, then the handler's first instruction in the same iteration (VF10). -/
def interrupted : State :=
  withBytes (withBytes
    (running 0x0F [] [(0, 1), (1, 2), (2, 3), (3, 4), (4, 5), (5, 1)] 0x40 true) 0xF7 [0x20]) 0x20 [0x65, 0x00]

theorem test_interrupt_frame : after (step interrupted) (fun t => decide (
    (List.range 9).map (fun k => t.mem.read (BitVec.ofNat 8 (0xEB + k))) =
      [0x00, 0x01, 0x05, 0x04, 0x03, 0x02, 0x01, 0x40, 0x0F])) := by decide
theorem test_interrupt_enters : after (step interrupted)
    (fun t => decide (t.reg 7 = 0xEB ∧ t.reg 6 = 0 ∧ t.reg 5 = 1 ∧ t.fl = 0x40 ∧ t.pc = 0x22 ∧ t.reg 0 = 2)) := by decide
/-- VF7, VF8: the lowest enabled line. -/
theorem test_line_order : selectLine 0xFF 0xFF = some 0 ∧ selectLine 0x08 0x09 = some 3 ∧
    selectLine 0x80 0x80 = some 7 ∧ selectLine 0x02 0x05 = none := by decide
/-- VF9: the ninth push finds SP = 0x00. -/
theorem test_interrupt_overflow : faults (step (running 0x0F [] [(5, 1), (6, 1), (7, 8)])) .stackRange 0x0F := by decide
/-- VF2: a masked line stays pending. -/
theorem test_masked_timer : after (step (running 5 [0x01] [(5, 0xFE)] 0 true))
    (fun t => decide (t.reg 6 = 1 ∧ t.run = .halted)) := by decide

/-! ## Reset, loading -/

theorem test_load_port : after (step { State.reset with inputs := [loadPins 0xF7 0x20] })
    (fun t => decide (t.mem.read 0xF7 = 0x20 ∧ t.run = .loading)) := by decide
theorem test_start : after (step { State.reset with inputs := [startPins] })
    (fun t => decide (t.run = .running ∧ t.pc = 0)) := by decide
theorem test_load_port_dead : after (step { running 0 [0x01] [] with inputs := [loadPins 0x10 0xFF] })
    (fun t => decide (t.mem.read 0x10 = 0)) := by decide
/-- The text of S1, its first two lines. -/
theorem test_loader_text : parseText ["# LDI R0,8".toList, "10000010".toList, "".toList, "01000111 PRN R0".toList] =
    .ok [0x82, 0x47] := by decide
theorem test_loader_malformed : parseText ["1000001x".toList] = .error .malformedLine ∧
    parseText ["1000001".toList] = .error .malformedLine := by decide

/-! ## The output pins (`00_scope.md` R6) -/

theorem test_out_pins_prn :
    let s := running 3 [0x47, 0x00] [(0, 8)]
    after (step s) (fun t => decide (outPins s t = ⟨true, 0, 8, .running, 0, 0⟩)) := by decide
theorem test_out_pins_pra :
    let s := running 3 [0x48, 0x00] [(0, 0x21)]
    after (step s) (fun t => decide (outPins s t = ⟨true, 1, 0x21, .running, 0, 0⟩)) := by decide
/-- DIV_ZERO is code 1 (`60_exceptions.md` R141). -/
theorem test_out_pins_fault :
    let s := running 0x20 [0xA4, 0x00, 0x01] [(0, 9)]
    after (step s) (fun t => decide ((outPins s t).outValid = false ∧ (outPins s t).run = .fault ∧
      (outPins s t).faultCode = 1 ∧ (outPins s t).faultPc = 0x20)) := by decide

/-! ## Witnesses: for each statement with hypotheses, states and operands that meet all of them

The clauses of a statement that has several each get their own, at a boundary of their range. -/

/-- A step answers its next state. -/
def next (s : State) : State :=
  match step s with
  | .next t => t
  | .fault _ | .refused _ => s

/-- An instruction answers its next state. -/
def ran (i : Instr) (s : State) : State :=
  match exec i s with
  | .next t => t
  | .fault _ | .refused _ => s

/-- A RUNNING state that `Inv` holds of, with code in memory and an enabled line. -/
theorem running_inv : (running 0xFD [0x82, 0x00, 0x07] [(5, 1)]).Inv :=
  ⟨by decide, by decide, by decide, by decide, by decide, by decide, by decide, by decide⟩

theorem witness_StepKeepsInvariant : ∃ s t : State, s.Inv ∧ step s = .next t ∧ t.pc = 0x100 :=
  ⟨_, next (running 0xFD [0x82, 0x00, 0x07] [(5, 1)]), running_inv, rfl, by decide⟩

/-- `rst` is sampled in each run state. -/
theorem witness_RstResetsEveryRunState : ∀ r ∈ [RunState.loading, .running, .halted, .pcPastEnd, .fault],
    State.pins { State.reset with run := r, inputs := [{ quietPins true with rst := true }] } =
      ⟨true, false, 0, 0, false, true⟩ := by decide

/-- Both at once, and the port alone. -/
theorem witness_LoadingStepWritesMemoryOnly : ∀ p ∈ [{ loadPins 0xFF 0x01 with start := true }, loadPins 0 0x82],
    let s : State := { State.reset with inputs := [p] }
    s.run = .loading ∧ s.pins.rst = false ∧ s.pins.loadWe = true := by decide

theorem witness_LoadScriptFillsMemory :
    (List.replicate 256 (0x01 : Byte)).length ≤ 256 ∧ ([] : List Byte).length ≤ 256 ∧
    256 < (List.replicate 257 (0x01 : Byte)).length :=
  ⟨List.length_replicate.le, by decide, by rw [List.length_replicate]; decide⟩

theorem witness_TerminalStatesStay : ∀ r ∈ [RunState.halted, .pcPastEnd, .fault],
    let s : State := { State.reset with run := r, inputs := [startPins] }
    s.run.terminal = true ∧ s.pins.rst = false := by decide

theorem witness_RunOffEndsTheRun :
    let s := running 0x100 [] []
    s.run = .running ∧ s.pins.rst = false ∧ 0xFF < s.pc.toNat := by decide

/-- LOADING with and without `start`; RUNNING to HALTED at 0xFF, to PC_PAST_END, and on; a terminal state. -/
theorem witness_RunStateTransitions :
    ∀ s ∈ [State.reset, { State.reset with inputs := [startPins] }, running 0xFF [0x01] [], running 0x100 [] [],
        running 0xFD [0x82, 0x00, 0x07] [], { State.reset with run := .halted, inputs := [startPins] }],
      HltEncOk s.hltEnc ∧ after (step s) (fun t => decide (t.hltEnc = s.hltEnc)) ∧ s.pins.rst = false := by decide
theorem witness_RunStateTransitions_halted : (next (running 0xFF [0x01] [])).run = .halted ∧
    (next (running 0x100 [] [])).run = .pcPastEnd := by decide

theorem witness_StepKeepsHltParameter : ∃ t, step (running 0 [0x82, 0, 7] []) = .next t ∧ t.reg 0 = 7 :=
  ⟨next (running 0 [0x82, 0, 7] []), rfl, by decide⟩

/-- The two samples differ in every pin that is dead. -/
theorem witness_LoadPortDeadOutsideLoading :
    let p := loadPins 0xFF 0x33
    let q := startPins
    (running 0 [0x01] []).run ≠ .loading ∧ p ≠ q ∧ p.rst = q.rst ∧ p.tmr = q.tmr := by decide

theorem witness_CanonicalMemoriesAreExtensional :
    let m := Memory.write [(0, 1), (0xFF, 2)] 0x20 0x07
    let n := Memory.write (Memory.write [(0, 1), (0x20, 9), (0xFF, 2)] 0x30 0x01) 0x30 0x00
    m.wf ∧ n.wf ∧ Memory.wf (Memory.write n 0x20 0x07) ∧ m = Memory.write n 0x20 0x07 := by decide

/-- The ST lies just below the top byte, which it writes. -/
theorem witness_StoreSeenByNextFetch :
    let s := running 0xFC [0x84, 0x00, 0x01] [(0, 0xFF), (1, 0x01)]
    s.pc.toNat + 3 ≤ 0xFF ∧ s.reg 0 = pcByte (s.pc + 3) := by decide

/-- The bounds of HLT_ENC. -/
theorem witness_DecodeOfEncode : HltEncOk 0x00 ∧ HltEncOk 0x10 ∧ HltEncOk 0x12 ∧ HltEncOk 0x3F := by decide

theorem witness_LegalOpcodeCounts : HltEncOk 0x00 ∧ HltEncOk 0x3F := by decide

theorem witness_EncodeOfDecode : HltEncOk 0x01 ∧ decodeWith 0x01 [0x50, 0xFF, 0x11] = .ok (.call 0xFF, [0x11]) := by decide

/-- Count 3 at 0xFF; two operands at 0xFE; an unknown byte whose operands fit, ending at 0xFF. -/
theorem witness_FetchAndDecodeFaults :
    (∀ s ∈ [running 0xFF [0xC0] [], running 0xFE [0x80] [], running 0xFD [0x80] []],
      HltEncOk s.hltEnc ∧ s.pc.toNat ≤ 0xFF) ∧
    operandCount (byteAt (running 0xFF [0xC0] []) 0xFF) = 3 ∧
    operandCount (byteAt (running 0xFE [0x80] []) 0xFE) = 2 ∧
    operandCount (byteAt (running 0xFD [0x80] []) 0xFD) = 2 := by decide
theorem witness_FetchAndDecodeFaults_unknown (i : Instr) : (encodeWith 0x01 i).head? ≠ some 0x80 := by
  cases i <;> simp [encodeWith]

/-- The last place where the three bytes fit, with an enabled line that is not pending. -/
theorem witness_StepRunsDecodedInstruction :
    let s := running 0xFD [0x82, 0x00, 0x07] [(5, 0xFF)]
    Iterates s ∧ HltEncOk s.hltEnc ∧ selectLine (sampled s).im (sampled s).is = none ∧
      CodeAt s (encodeWith s.hltEnc (.ldi 0 7)) :=
  ⟨⟨by decide, by decide, by decide⟩, by decide, by decide, by decide,
    fun k h => match k, h with
      | 0, _ => by rfl
      | 1, _ => by rfl
      | 2, _ => by rfl⟩

/-- `EncodedF2`: both clauses at their bounds, for each two-operand opcode. -/
theorem witness_EncodedF2 : ∀ op ∈ [(0x82 : Byte), 0xA0, 0xA2, 0xA7, 0xA8, 0xAA, 0xAB, 0xAC, 0xAD, 0xA4, 0x84],
    ∀ p ∈ [(0x00 : PcWord), 0xFD, 0xFE, 0xFF],
      let s := running p [op] []
      HltEncOk s.hltEnc ∧ s.pc.toNat ≤ 0xFF ∧ byteAt s s.pc = op := by decide

/-- `EncodedF1`: both clauses at their bounds, for each one-operand opcode. -/
theorem witness_EncodedF1 : ∀ op ∈ [(0x47 : Byte), 0x48, 0x69, 0x65, 0x66, 0x45, 0x46, 0x50, 0x54, 0x55, 0x56],
    ∀ p ∈ [(0x00 : PcWord), 0xFE, 0xFF],
      let s := running p [op] []
      HltEncOk s.hltEnc ∧ s.pc.toNat ≤ 0xFF ∧ byteAt s s.pc = op := by decide

/-- `EncodedF0` of RET, and the fetch of HLT in HltRule. -/
theorem witness_EncodedF0 : ∀ op ∈ [(0x11 : Byte), 0x01], ∀ p ∈ [(0x00 : PcWord), 0xFF],
    let s := running p [op] []
    HltEncOk s.hltEnc ∧ s.pc.toNat ≤ 0xFF ∧ byteAt s s.pc = op := by decide
theorem witness_HltRule : byteAt (running 0xFF [0x01] []) 0xFF = (running 0xFF [0x01] []).hltEnc := by decide

/-- `ChecksReg` and `ChecksRegs`: the operand bytes next to the range and at the end of the byte. -/
theorem witness_ChecksReg : ∀ a ∈ [(0x08 : Byte), 0xFF], 7 < a.toNat ∧ (7 < a.toNat ∨ 7 < (0x00 : Byte).toNat) ∧
    (7 < (0x07 : Byte).toNat ∨ 7 < a.toNat) := by decide

theorem witness_ShiftRules : 8 ≤ ((running 0 [] [(1, 8)]).reg 1).toNat ∧ ((running 0 [] [(1, 7)]).reg 1).toNat < 8 := by decide

theorem witness_ModRule : (running 0 [] [(1, 1)]).reg 1 ≠ 0x00 ∧ (running 0 [] [(0, 9)]).reg 1 = 0x00 := by decide

theorem witness_AluIsFixedWidthArithmetic : (0x01 : Byte) ≠ 0 := by decide

theorem witness_PushRule : (running 0 [] [(7, 1)]).sp ≠ 0x00 ∧ (running 0 [] [(7, 0)]).sp = 0x00 := by decide

/-- Each clause: POP of another register with and without room, POP R7 likewise, PUSH then POP. -/
theorem witness_PopRule :
    (running 0 [] [(7, 0xFE)]).sp ≠ 0xFF ∧ (running 0 [] [(7, 0xFF)]).sp = 0xFF ∧
    (withBytes (running 0 [] [(7, 0xFF)]) 0xFF [0xFE]).mem.read 0xFF ≠ 0xFF ∧
    (withBytes (running 0 [] [(7, 0x10)]) 0x10 [0xFF]).mem.read 0x10 = 0xFF ∧
    (running 0 [] [(7, 1)]).sp ≠ 0x00 ∧ (0 : RegIndex) ≠ 7 := by decide

theorem witness_CallRule :
    ((running 0xFD [] [(7, 1)]).pc.toNat ≤ 0xFD ∧ (running 0xFD [] [(7, 1)]).sp ≠ 0x00) ∧
    (running 0xFE [] []).pc.toNat = 0xFE ∧
    ((running 0xFD [] [(7, 0)]).pc.toNat ≤ 0xFD ∧ (running 0xFD [] [(7, 0)]).sp = 0x00) := by decide

theorem witness_RetRule : (running 0 [] [(7, 0xFE)]).sp ≠ 0xFF ∧ (running 0 [] [(7, 0xFF)]).sp = 0xFF := by decide

/-- The subroutine of vector P3 changes R0 and leaves SP and the cell of the return address. -/
theorem witness_CallThenRetReturns :
    let s := running 0x06 [0x50, 0x01] [(1, 0x0C)]
    let t := ran (.call (regByte 1)) s
    let u := t.setReg 0 0x14
    s.pc.toNat ≤ 0xFD ∧ s.sp ≠ 0x00 ∧ after (exec (.call (regByte 1)) s) (fun v => decide (v = t)) ∧
      u.sp = t.sp ∧ u.mem.read t.sp = t.mem.read t.sp := by decide

/-- HLT; a default advance to 0x100; each instruction that writes `pc` itself, JEQ and JNE both ways. -/
theorem witness_ProgramCounterAfterInstruction :
    ∀ c ∈ [(Instr.hlt, running 0xFF [] []), (.ldi 0 1, running 0xFD [] []), (.inc 0, running 0xFE [] []),
        (.jmp (regByte 7), running 0xFE [] []), (.jeq (regByte 2), running 0xFE [] [] 0x80),
        (.jeq (regByte 2), running 0xFE [] [] 0x7F), (.jne (regByte 2), running 0xFE [] [] 0x80),
        (.jne (regByte 2), running 0xFE [] [] 0x00), (.call (regByte 7), running 0xFD [] []),
        (.ret, running 0xFF [] [])],
      HltEncOk c.2.hltEnc ∧ (encodeWith c.2.hltEnc c.1).length = operandBytes c.1 + 1 ∧ c.2.run = .running ∧
        c.2.pc.toNat ≤ 0xFF ∧ after (exec c.1 c.2) (fun t => decide (t.run ≠ .fault)) := by decide

/-- RegisterFrame, MemoryFrame, RestOfStateFrame: one instruction of each shape, not faulting. Also those of
the first clause of FlagsNeverCleared for all but CMP. -/
theorem witness_frames :
    ∀ i ∈ [Instr.hlt, .ldi 1 0xFF, .prn 1, .add 1 2, .cmp 1 2, .mod 1 2, .not 1, .push 1, .pop 1, .call 1, .ret,
        .st 1 2, .jmp 1, .jeq 1],
      let s := running 0x10 [] [(1, 0x20), (2, 3)]
      s.run = .running ∧ after (exec i s) (fun t => decide (t.run ≠ .fault)) ∧ regByte 6 ∉ writtenRegs i ∧
        storeAddress i s ≠ some 0x80 := by decide

/-- A CMP that sets a flag beside one that is set, and a masked poll. -/
theorem witness_FlagsNeverCleared :
    let s := running 0 [0xA7, 0x00, 0x01] [(0, 3), (1, 5)] 0x80
    after (step s) (fun t => decide (t.run ≠ .fault ∧ t.fl = 0xA0)) ∧ s.pins.rst = false ∧ s.run ≠ .fault ∧
      equalSet s.fl = true ∧ (interruptPoll true s).isOk = true := by decide

theorem witness_OutputOnlyGrows :
    after (step (running 3 [0x47, 0x00] [(0, 8)])) (fun t => decide (t.output.length = 1)) ∧
    after (step (running 3 [0x47, 0x08] [(0, 8)])) (fun t => decide (t.run = .fault)) ∧
    (running 3 [0x47, 0x00] [(0, 8)]).pins.rst = false := by decide

theorem witness_IllFormedInstructionsFault : (Instr.ldi 0x08 0).wf = false ∧ (Instr.st 0x07 0x08).wf = false := by decide

/-- Each of the six faults. -/
theorem witness_WellFormedInstructionFaults :
    ∀ c ∈ [(Instr.mod 0 1, running 0 [] []), (.push 0, running 0 [] [(7, 0)]), (.pop 0, running 0 [] [(7, 0xFF)]),
        (.pop 7, withBytes (running 0 [] [(7, 0x10)]) 0x10 [0xFF]), (.call 0, running 0xFE [] [(7, 0)]),
        (.call 0, running 0xFD [] [(7, 0)]), (.ret, running 0 [] [(7, 0xFF)])],
      c.1.wf = true ∧ c.2.run = .running ∧ c.2.pc.toNat ≤ 0xFF ∧
        after (exec c.1 c.2) (fun t => decide (t.run = .fault)) := by decide

/-- Lines 0 and 7 with others pending above, the timer setting line 0, and no line. -/
theorem witness_PollEntersLowestEnabledLine :
    (let s := sampleTimer true (running 0 [] [(5, 0xFF), (6, 0xFE)]);
      (s.im &&& s.is).getLsbD 0 = true) ∧
    (let s := sampleTimer false (running 0 [] [(5, 0x80), (6, 0xFF)]);
      (s.im &&& s.is).getLsbD 7 = true ∧ ∀ j < (7 : RegIndex), (s.im &&& s.is).getLsbD j.val = false) ∧
    (let s := sampleTimer true (running 0 [] [(5, 0xFE)]);
      s.im &&& s.is = 0x00) := by decide
theorem witness_PollEntersLowestEnabledLine_step :
    Iterates interrupted ∧ (interruptPoll interrupted.pins.tmr interrupted.consume).isOk = true ∧
    Iterates (running 0xFF [] [(5, 1), (6, 1), (7, 8)]) ∧
    interruptPoll false (running 0xFF [] [(5, 1), (6, 1), (7, 8)]).consume = .error .stackRange :=
  ⟨⟨by decide, by decide, by decide⟩, by decide, ⟨by decide, by decide, by decide⟩, by rfl⟩

/-- SP at the bound for lines 0 and 7, and a step that enters. -/
theorem witness_InterruptEntryPushesFrame :
    9 ≤ (running 0 [] [(7, 9)]).sp.toNat ∧ Iterates interrupted ∧
    selectLine (sampled interrupted).im (sampled interrupted).is = some 0 ∧
    (interruptEntry 0 (sampled interrupted)).isOk = true ∧ (interruptEntry 7 (running 0 [] [(7, 9)])).isOk = true :=
  ⟨by decide, ⟨by decide, by decide, by decide⟩, by decide, by decide, by decide⟩

theorem witness_InterruptEntryOverflowFaults :
    let s := running 0xFF [] [(5, 0x80), (6, 0x80), (7, 8)]
    Iterates s ∧ selectLine (sampled s).im (sampled s).is = some 7 ∧ s.sp.toNat < 9 :=
  ⟨⟨by decide, by decide, by decide⟩, by decide, by decide⟩

/-- A poll that enters and one that does not. -/
theorem witness_PollFrame : (interruptPoll true interrupted).isOk = true ∧
    (interruptPoll false (running 0 [] [])).isOk = true := by decide

theorem witness_EnabledTimerEntersEveryIteration :
    let s := running 0xFF [] [(5, 0xFF), (6, 0xF0), (7, 9)] 0 true
    Iterates s ∧ s.pins.tmr = true ∧ s.im.getLsbD 0 = true ∧ 9 ≤ s.sp.toNat :=
  ⟨⟨by decide, by decide, by decide⟩, by decide, by decide, by decide⟩

/-- A step with an event, one without, one with `rst`; an instruction of each. -/
theorem witness_OutputPinsShowEachEvent :
    (∀ c ∈ [(running 3 [0x47, 0x07] [], true), (running 3 [0x01] [], false)],
      c.1.pins.rst = false ∧ after (step c.1) (fun t => decide ((outPins c.1 t).outValid = c.2))) ∧
    (∀ c ∈ [(Instr.pra 7, true), (.pra 8, false), (.inc 7, false)],
      after (exec c.1 State.reset) (fun t => decide ((outPins State.reset t).outValid = c.2))) ∧
    State.pins { State.reset with output := [⟨.prn, 1⟩], inputs := [{ quietPins true with rst := true }] } =
      ⟨true, false, 0, 0, false, true⟩ := by decide

end Sys2Proof.Machine.Tests
end

section
/-! The Dispatcher's own instructions LDI and ST (`40_dispatcher.md` R88, R89), from three rules over every
instruction: what the fetch makes of an opcode byte with two operand bytes, what an operand byte above 7
leads to, and where the default advance leads. -/

namespace Sys2Proof.Machine

/-! ## Fetch and decode of two operand bytes (R82) -/

theorem fetchExecute_of_decode {s : State} {i : Instr} {rest : List Byte}
    (h : decodeWith s.hltEnc (fetchBytes s) = .ok (i, rest)) : fetchExecute s = exec i s := by
  simp only [fetchExecute, h]

theorem faultsWith_of_reject {s : State} {r : DecodeReject}
    (h : decodeWith s.hltEnc (fetchBytes s) = .error r) :
    FaultsWith (rejectFault r) s (fetchExecute s) := by
  simpa only [fetchExecute, h] using faultsWith_raiseFault (rejectFault r) s

/-- Where the three bytes fit, the operands are those the opcode byte selects its instruction with. -/
theorem decodeWith_two_operands {h op a b : Byte} {i : Instr} (hn : operandCount op = 2)
    (hd : decodeOpcode h op a b = some i) (rest : List Byte) :
    decodeWith h (op :: a :: b :: rest) = .ok (i, rest) := by
  simp [decodeWith, hn, hd]

theorem decodeWith_two_operands_truncated {op : Byte} (hn : operandCount op = 2) (h : Byte)
    {rest : List Byte} (hr : rest.length < 2) : decodeWith h (op :: rest) = .error .truncated := by
  have hnone : takeOperands 2 rest = none := by
    match rest, hr with
    | [], _ => rfl
    | [_], _ => rfl
  simp [decodeWith, hn, hnone]

/-- An opcode byte of operand count 2 that is in the table beside HLT_ENC is encoded in format F2. -/
theorem encodedF2_of_decodeOpcode {op : Byte} {mk : Byte → Byte → Instr} (hn : operandCount op = 2)
    (hd : ∀ h a b, op ≠ h → decodeOpcode h op a b = some (mk a b)) : EncodedF2 op mk := by
  intro s ho hpc hop
  have hne : op ≠ s.hltEnc := ne_hltEnc_of_operandCount ho (by omega)
  constructor
  · intro hfit
    have hf : fetchBytes s = [op, byteAt s (s.pc + 1), byteAt s (s.pc + 2)] := by
      rw [fetchBytes_eq, if_pos hfit, hop]
    apply fetchExecute_of_decode (rest := [])
    rw [hf]
    exact decodeWith_two_operands hn (hd _ _ _ hne) []
  · intro htop
    obtain ⟨rest, hf, hlen⟩ : ∃ rest, fetchBytes s = op :: rest ∧ rest.length < 2 := by
      rw [fetchBytes_eq, if_neg (by omega), hop]
      by_cases hFE : s.pc.toNat = 0xFE
      · exact ⟨[byteAt s (s.pc + 1)], if_pos hFE, by simp⟩
      · exact ⟨[], by rw [if_neg hFE, if_pos (by omega)], by simp⟩
    apply faultsWith_of_reject (r := .truncated)
    rw [hf]
    exact decodeWith_two_operands_truncated hn _ hlen

/-! ## Operand bytes above 7 (R84) -/

theorem regByte_le (r : RegIndex) : (regByte r).toNat ≤ 7 := by
  revert r; decide

theorem withReg_of_gt {a : Byte} (h : 7 < a.toNat) (k : RegIndex → Effect) :
    withReg a k = .error .regRange :=
  withReg_eq_error.2 (.inr ⟨decide_eq_false (Nat.not_lt.2 h), rfl⟩)

theorem withRegs_of_gt {a b : Byte} (h : 7 < a.toNat ∨ 7 < b.toNat) (k : RegIndex → RegIndex → Effect) :
    withRegs a b k = .error .regRange := by
  unfold withRegs
  rcases withReg_cases a (fun ra => withReg b fun rb => k ra rb) with ⟨r, rfl, e⟩ | ⟨_, e⟩
  · have hb : 7 < b.toNat := h.resolve_left (Nat.not_lt.2 (regByte_le r))
    rw [e, withReg_of_gt hb]
  · exact e

/-- An effect that is an error ends the instruction in that fault. -/
theorem faultsWith_of_effectOf_error {i : Instr} {s : State} {c : FaultCode}
    (h : effectOf i s = .error c) : FaultsWith c s (exec i s) := by
  rw [exec_eq_settle, h]
  exact faultsWith_raiseFault c s

/-- An instruction whose whole effect is under the check of its one reg operand. -/
theorem checksReg_of_effectOf {mk : Byte → Instr} (k : State → RegIndex → Effect)
    (h : ∀ s a, effectOf (mk a) s = withReg a (k s)) : ChecksReg mk := fun s a ha =>
  faultsWith_of_effectOf_error ((h s a).trans (withReg_of_gt ha _))

/-- An instruction whose whole effect is under the check of its two reg operands. -/
theorem checksRegs_of_effectOf {mk : Byte → Byte → Instr} (k : State → RegIndex → RegIndex → Effect)
    (h : ∀ s a b, effectOf (mk a b) s = withRegs a b (k s)) : ChecksRegs mk := fun s a b hab =>
  faultsWith_of_effectOf_error ((h s a b).trans (withRegs_of_gt hab _))

/-! ## Legal operands -/

/-- The default advance of an instruction with two operand bytes (R85). -/
theorem State.advance_two (s : State) : s.advance 2 = s.setPc (s.pc + 3) := by
  have hpc : s.pc + 1 + BitVec.ofNat 9 2 = s.pc + 3 := by rw [BitVec.add_assoc]; rfl
  rw [State.advance, hpc]; rfl

theorem exec_ldi_regByte (s : State) (r : RegIndex) (imm : Byte) :
    exec (.ldi (regByte r) imm) s = .next ((s.setReg r imm).setPc (s.pc + 3)) := by
  rw [exec_eq_settle, effectOf, withReg_regByte, settle_ok, State.advance_two, State.setReg_pc]

theorem exec_st_regByte (s : State) (ra rb : RegIndex) :
    exec (.st (regByte ra) (regByte rb)) s =
      .next ((s.writeMem (s.reg ra) (s.reg rb)).setPc (s.pc + 3)) := by
  rw [exec_eq_settle, effectOf, withRegs_regByte, settle_ok, State.advance_two, State.writeMem_pc]

/-! ## The two rules -/

/-- Settles O27: the encoding, the effect on a legal register, and the check of the first operand alone. -/
theorem ldiRule : Obligations.LdiRule :=
  ⟨encodedF2_of_decodeOpcode (by decide) fun _ _ _ hne => (if_neg hne).trans rfl,
    exec_ldi_regByte,
    fun _ => checksReg_of_effectOf _ fun _ _ => rfl⟩

/-- Settles O28: the encoding, the store with what a read after it gives, and the check of both operands. -/
theorem stRule : Obligations.StRule :=
  ⟨encodedF2_of_decodeOpcode (by decide) fun _ _ _ hne => (if_neg hne).trans rfl,
    fun s ra rb => ⟨exec_st_regByte s ra rb, Memory.read_write s.mem (s.reg ra) (s.reg rb)⟩,
    checksRegs_of_effectOf _ fun _ _ _ => rfl⟩

end Sys2Proof.Machine
end

section
/-! ALU instructions that write a register (`41_alu.md` R101, R102, R104 to R107, R110 to R112): what the
fetch makes of an opcode byte with one operand byte, where the two ALU shapes lead on legal registers,
and each result as the statements write it. -/

namespace Sys2Proof.Machine

/-! ## Fetch and decode of one operand byte (R82) -/

theorem decodeWith_one_operand {h op a : Byte} {i : Instr} (hn : operandCount op = 1)
    (hd : decodeOpcode h op a 0#8 = some i) (rest : List Byte) :
    decodeWith h (op :: a :: rest) = .ok (i, rest) := by
  simp [decodeWith, hn, hd]

theorem decodeWith_one_operand_truncated {op : Byte} (hn : operandCount op = 1) (h : Byte) :
    decodeWith h [op] = .error .truncated := by
  simp [decodeWith, hn, takeOperands]

/-- An opcode byte of operand count 1 that is in the table beside HLT_ENC is encoded in format F1. -/
theorem encodedF1_of_decodeOpcode {op : Byte} {mk : Byte → Instr} (hn : operandCount op = 1)
    (hd : ∀ h a, op ≠ h → decodeOpcode h op a 0#8 = some (mk a)) : EncodedF1 op mk := by
  intro s ho hpc hop
  have hne : op ≠ s.hltEnc := ne_hltEnc_of_operandCount ho (by omega)
  constructor
  · intro hfit
    obtain ⟨rest, hf⟩ : ∃ rest, fetchBytes s = op :: byteAt s (s.pc + 1) :: rest := by
      rw [fetchBytes_eq, hop]
      by_cases hFD : s.pc.toNat ≤ 0xFD
      · exact ⟨[byteAt s (s.pc + 2)], if_pos hFD⟩
      · exact ⟨[], by rw [if_neg hFD, if_pos (by omega)]⟩
    apply fetchExecute_of_decode (rest := rest)
    rw [hf]
    exact decodeWith_one_operand hn (hd _ _ hne) rest
  · intro htop
    have hf : fetchBytes s = [op] := by
      rw [fetchBytes_eq, if_neg (by omega), if_neg (by omega), if_pos htop, hop]
    apply faultsWith_of_reject (r := .truncated)
    rw [hf]
    exact decodeWith_one_operand_truncated hn _

/-! ## The ALU shapes on legal registers (R100) -/

/-- The default advance of an instruction with one operand byte (R85). -/
theorem State.advance_one (s : State) : s.advance 1 = s.setPc (s.pc + 2) := by
  have hpc : s.pc + 1 + BitVec.ofNat 9 1 = s.pc + 2 := by rw [BitVec.add_assoc]; rfl
  rw [State.advance, hpc]; rfl

theorem aluBinary_regByte (f : Byte → Byte → Byte) (ra rb : RegIndex) (s : State) :
    aluBinary f (regByte ra) (regByte rb) s =
      .next ((s.setReg ra (f (s.reg ra) (s.reg rb))).setPc (s.pc + 3)) := by
  rw [aluBinary, withRegs_regByte, settle_ok, State.advance_two, State.setReg_pc]

theorem aluUnary_regByte (f : Byte → Byte) (r : RegIndex) (s : State) :
    aluUnary f (regByte r) s = .next ((s.setReg r (f (s.reg r))).setPc (s.pc + 2)) := by
  rw [aluUnary, withReg_regByte, settle_ok, State.advance_one, State.setReg_pc]

/-- A divisor value that is not 0 makes MOD an instruction of the two-operand shape (R110). -/
theorem exec_mod_of_ne_zero {s : State} {rb : RegIndex} (h : s.reg rb ≠ 0x00) (ra : RegIndex) :
    exec (.mod (regByte ra) (regByte rb)) s = aluBinary aluMod (regByte ra) (regByte rb) s := by
  rw [exec_eq_settle, effectOf, aluBinary, withRegs_regByte, withRegs_regByte, if_neg h]

theorem effectOf_mod_of_eq_zero {s : State} {rb : RegIndex} (h : s.reg rb = 0x00) (ra : RegIndex) :
    effectOf (.mod (regByte ra) (regByte rb)) s = .error .divZero := by
  rw [effectOf, withRegs_regByte, if_pos h]

/-! ## The results as natural numbers modulo 256 (R113) -/

theorem u8_natCast (n : Nat) : u8 n = BitVec.ofNat 8 n := BitVec.ofInt_natCast 8 n

theorem aluAdd_eq_ofNat (v w : Byte) : aluAdd v w = BitVec.ofNat 8 (v.toNat + w.toNat) := by
  rw [aluAdd, ← Int.natCast_add, u8_natCast]

theorem aluMul_eq_ofNat (v w : Byte) : aluMul v w = BitVec.ofNat 8 (v.toNat * w.toNat) := by
  rw [aluMul, ← Int.natCast_mul, u8_natCast]

theorem aluMod_eq_ofNat (v w : Byte) : aluMod v w = BitVec.ofNat 8 (v.toNat % w.toNat) :=
  u8_natCast _

theorem aluInc_eq_ofNat (v : Byte) : aluInc v = BitVec.ofNat 8 (v.toNat + 1) := by
  rw [aluInc, ← Nat.cast_succ, u8_natCast]

/-- One less is 255 more modulo 256: 0x00 goes to 0xFF (R112). -/
theorem aluDec_eq_ofNat (v : Byte) : aluDec v = BitVec.ofNat 8 (v.toNat + 255) := by
  apply BitVec.eq_of_toNat_eq
  simp only [aluDec, u8, BitVec.toNat_ofInt, BitVec.toNat_ofNat]
  omega

/-- The complement of the 8 bits is 255 minus the value (R107). -/
theorem aluNot_eq_ofNat (v : Byte) : aluNot v = BitVec.ofNat 8 (255 - v.toNat) := by
  have hnot : aluNot v = ~~~v := BitVec.xor_allOnes
  apply BitVec.eq_of_toNat_eq
  rw [hnot, BitVec.toNat_not, BitVec.toNat_ofNat]
  omega

/-! ## The three rules -/

/-- Settles O21: the encodings, the shape of each instruction with its result modulo 256, and the checks
of the operands. -/
theorem arithmeticRules : Obligations.ArithmeticRules := by
  refine ⟨⟨?_, ?_, ?_, ?_⟩, fun s ra rb => ⟨?_, ?_, ?_, ?_⟩, ?_, ?_, ?_, ?_⟩
  · exact encodedF2_of_decodeOpcode (by decide) fun _ _ _ hne => (if_neg hne).trans rfl
  · exact encodedF2_of_decodeOpcode (by decide) fun _ _ _ hne => (if_neg hne).trans rfl
  · exact encodedF1_of_decodeOpcode (by decide) fun _ _ hne => (if_neg hne).trans rfl
  · exact encodedF1_of_decodeOpcode (by decide) fun _ _ hne => (if_neg hne).trans rfl
  · rw [← aluAdd_eq_ofNat]; exact aluBinary_regByte aluAdd ra rb s
  · rw [← aluMul_eq_ofNat]; exact aluBinary_regByte aluMul ra rb s
  · rw [← aluInc_eq_ofNat]; exact aluUnary_regByte aluInc ra s
  · rw [← aluDec_eq_ofNat]; exact aluUnary_regByte aluDec ra s
  · exact checksRegs_of_effectOf _ fun _ _ _ => rfl
  · exact checksRegs_of_effectOf _ fun _ _ _ => rfl
  · exact checksReg_of_effectOf _ fun _ _ => rfl
  · exact checksReg_of_effectOf _ fun _ _ => rfl

/-- Settles O22: the encodings, the shape of each instruction with its bitwise result (for NOT, 255 minus
the value), and the checks of the operands. -/
theorem logicRules : Obligations.LogicRules := by
  refine ⟨⟨?_, ?_, ?_, ?_⟩, fun s ra rb => ⟨?_, ?_, ?_, ?_⟩, ?_, ?_, ?_, ?_⟩
  · exact encodedF2_of_decodeOpcode (by decide) fun _ _ _ hne => (if_neg hne).trans rfl
  · exact encodedF2_of_decodeOpcode (by decide) fun _ _ _ hne => (if_neg hne).trans rfl
  · exact encodedF2_of_decodeOpcode (by decide) fun _ _ _ hne => (if_neg hne).trans rfl
  · exact encodedF1_of_decodeOpcode (by decide) fun _ _ hne => (if_neg hne).trans rfl
  · exact aluBinary_regByte aluAnd ra rb s
  · exact aluBinary_regByte aluOr ra rb s
  · exact aluBinary_regByte aluXor ra rb s
  · rw [← aluNot_eq_ofNat]; exact aluUnary_regByte aluNot ra s
  · exact checksRegs_of_effectOf _ fun _ _ _ => rfl
  · exact checksRegs_of_effectOf _ fun _ _ _ => rfl
  · exact checksRegs_of_effectOf _ fun _ _ _ => rfl
  · exact checksReg_of_effectOf _ fun _ _ => rfl

/-- Settles O24: the encoding, the remainder where the divisor register holds a value that is not 0,
DIV_ZERO where it holds 0, and the register check before both. -/
theorem modRule : Obligations.ModRule := by
  refine ⟨?_, fun s ra rb hne => ?_, fun s ra rb hz => ?_, ?_⟩
  · exact encodedF2_of_decodeOpcode (by decide) fun _ _ _ hne => (if_neg hne).trans rfl
  · rw [exec_mod_of_ne_zero hne, ← aluMod_eq_ofNat]
    exact aluBinary_regByte aluMod ra rb s
  · exact faultsWith_of_effectOf_error (effectOf_mod_of_eq_zero hz ra)
  · exact checksRegs_of_effectOf _ fun _ _ _ => rfl

end Sys2Proof.Machine
end

section
/-! PUSH and RET (`42_stack_call.md` R122, R125): what the fetch makes of an opcode byte with no operand
byte, and where each instruction leads with and without room on the stack. -/

namespace Sys2Proof.Machine

/-! ## Fetch and decode of an instruction with no operand byte (R82) -/

theorem decodeWith_no_operand {h op : Byte} {i : Instr} (hn : operandCount op = 0)
    (hd : decodeOpcode h op 0#8 0#8 = some i) (rest : List Byte) :
    decodeWith h (op :: rest) = .ok (i, rest) := by
  simp [decodeWith, hn, takeOperands, hd]

/-- The fetch begins with the byte at `pc`, at 0xFF too. -/
theorem fetchBytes_eq_cons {s : State} (hpc : s.pc.toNat ≤ 0xFF) :
    ∃ rest, fetchBytes s = byteAt s s.pc :: rest := by
  rw [fetchBytes_eq]
  by_cases hFD : s.pc.toNat ≤ 0xFD
  · exact ⟨_, if_pos hFD⟩
  · by_cases hFE : s.pc.toNat = 0xFE
    · exact ⟨_, by rw [if_neg hFD, if_pos hFE]⟩
    · exact ⟨_, by rw [if_neg hFD, if_neg hFE, if_pos (by omega)]⟩

/-- An opcode byte of operand count 0 that selects an instruction beside every legal HLT_ENC is encoded
in format F0. -/
theorem encodedF0_of_decodeOpcode {op : Byte} {i : Instr} (hn : operandCount op = 0)
    (hd : ∀ h, HltEncOk h → decodeOpcode h op 0#8 0#8 = some i) : EncodedF0 op i := by
  intro s ho hpc hop
  obtain ⟨rest, hf⟩ := fetchBytes_eq_cons hpc
  apply fetchExecute_of_decode (rest := rest)
  rw [hf, hop]
  exact decodeWith_no_operand hn (hd _ ho) rest

/-! ## PUSH on a legal register (R122) -/

/-- The byte stored is the register's once SP is decremented. -/
theorem exec_push_of_ne_zero {s : State} (h : s.sp ≠ 0x00) (r : RegIndex) :
    exec (.push (regByte r)) s = .next (((s.setReg 7 (s.sp - 1)).writeMem (s.sp - 1)
      (if r = 7 then s.sp - 1 else s.reg r)).setPc (s.pc + 2)) := by
  rw [exec_eq_settle, effectOf, withReg_regByte, pushWith_eq_ok.2 ⟨h, rfl⟩, Effect.andThen_ok, settle_ok,
    State.advance_one]
  simp [eq_comm (a := r)]

theorem effectOf_push_of_eq_zero {s : State} (h : s.sp = 0x00) (r : RegIndex) :
    effectOf (.push (regByte r)) s = .error .stackRange := by
  rw [effectOf, withReg_regByte, pushWith_eq_error.2 ⟨h, rfl⟩, Effect.andThen_error]

/-! ## RET (R125) -/

/-- The byte is read at the SP before the increment. -/
theorem exec_ret_of_ne_top {s : State} (h : s.sp ≠ 0xFF) :
    exec .ret s = .next ((s.setReg 7 (s.sp + 1)).setPc (zext9 (s.mem.read s.sp))) := by
  rw [exec_eq_settle, effectOf, stepSpUp_eq_ok.2 ⟨h, rfl⟩, Effect.andThen_ok, settle_ok, State.sp_eq]

theorem effectOf_ret_of_eq_top {s : State} (h : s.sp = 0xFF) : effectOf .ret s = .error .stackRange := by
  rw [effectOf, stepSpUp_eq_error.2 ⟨h, rfl⟩, Effect.andThen_error]

/-! ## The two rules -/

/-- Settles O31: the encoding, the push with what reads after it give, STACK_RANGE without room, and the
check of the operand. -/
theorem pushRule : Obligations.PushRule := by
  refine ⟨?_, fun s r hsp => ⟨_, exec_push_of_ne_zero hsp r, rfl, ?_, fun c hc => ?_⟩, fun s r hsp => ?_, ?_⟩
  · exact encodedF1_of_decodeOpcode (by decide) fun _ _ hne => (if_neg hne).trans rfl
  · exact (Memory.read_write _ _ _ _).trans (if_pos rfl)
  · exact (Memory.read_write _ _ _ _).trans (if_neg hc)
  · exact faultsWith_of_effectOf_error (effectOf_push_of_eq_zero hsp r)
  · exact checksReg_of_effectOf _ fun _ _ => rfl

/-- Settles O34: the encoding (HLT_ENC is never the byte of RET), the return, and STACK_RANGE with SP at
the top. -/
theorem retRule : Obligations.RetRule := by
  refine ⟨?_, fun s hsp => ?_, fun s hsp => ?_⟩
  · exact encodedF0_of_decodeOpcode (by decide) fun _ ho => (if_neg ho.2.symm).trans rfl
  · exact exec_ret_of_ne_top hsp
  · exact faultsWith_of_effectOf_error (effectOf_ret_of_eq_top hsp)

end Sys2Proof.Machine
end

section
/-! JMP, JEQ, JNE (`43_jumps.md` R130 to R132): the condition "E set" read as a mask of the flags, and
where a jump leads on a legal register. -/

namespace Sys2Proof.Machine

/-! ## The condition E (R131, R132) -/

theorem and_flagE (fl : Byte) : fl &&& flagE = if equalSet fl then flagE else 0x00 :=
  BitVec.and_twoPow fl 7

theorem equalSet_iff_and_eq_flagE (fl : Byte) : equalSet fl = true ↔ fl &&& flagE = flagE := by
  rw [and_flagE]
  cases equalSet fl <;> decide

theorem not_equalSet_iff_and_eq_zero (fl : Byte) : (!equalSet fl) = true ↔ fl &&& flagE = 0x00 := by
  rw [and_flagE]
  cases equalSet fl <;> decide

/-! ## Jumps on a legal register -/

theorem jumpIf_regByte (taken : Bool) (r : RegIndex) (s : State) :
    jumpIf taken (regByte r) s = .next (s.setPc (if taken then zext9 (s.reg r) else s.pc + 2)) := by
  rw [jumpIf, withReg_regByte, settle_ok]

theorem exec_jmp_regByte (s : State) (r : RegIndex) :
    exec (.jmp (regByte r)) s = .next (s.setPc (zext9 (s.reg r))) :=
  jumpIf_regByte true r s

theorem exec_jeq_regByte (s : State) (r : RegIndex) : exec (.jeq (regByte r)) s =
    .next (s.setPc (if s.fl &&& flagE = flagE then zext9 (s.reg r) else s.pc + 2)) := by
  simp only [← equalSet_iff_and_eq_flagE]
  exact jumpIf_regByte (equalSet s.fl) r s

theorem exec_jne_regByte (s : State) (r : RegIndex) : exec (.jne (regByte r)) s =
    .next (s.setPc (if s.fl &&& flagE = 0x00 then zext9 (s.reg r) else s.pc + 2)) := by
  simp only [← not_equalSet_iff_and_eq_zero]
  exact jumpIf_regByte (!equalSet s.fl) r s

/-! ## The rule -/

/-- Settles O36: the encodings, where each jump leads by bit 7 of the flags, and the check of the operand
on both paths. -/
theorem jumpRules : Obligations.JumpRules := by
  refine ⟨⟨?_, ?_, ?_⟩, fun s r => ⟨exec_jmp_regByte s r, exec_jeq_regByte s r, exec_jne_regByte s r⟩,
    ?_, ?_, ?_⟩
  · exact encodedF1_of_decodeOpcode (by decide) fun _ _ hne => (if_neg hne).trans rfl
  · exact encodedF1_of_decodeOpcode (by decide) fun _ _ hne => (if_neg hne).trans rfl
  · exact encodedF1_of_decodeOpcode (by decide) fun _ _ hne => (if_neg hne).trans rfl
  · exact checksReg_of_effectOf _ fun _ _ => rfl
  · exact checksReg_of_effectOf _ fun _ _ => rfl
  · exact checksReg_of_effectOf _ fun _ _ => rfl

end Sys2Proof.Machine
end

section
/-! Interrupt entry (`60_exceptions.md` R154): which byte of the frame lies where once the frame is pushed,
and the step that enters. -/

namespace Sys2Proof.Machine

/-! ## Memory after a run of pushes (R120) -/

/-- The byte pushed as number `k` is read `k` cells below the first one. -/
theorem read_pushedMem_of_getElem? {l : List Byte} {sp c v : Byte} {k : Nat} (hl : l.length ≤ 256)
    (hc : (sp - 1 - c).toNat = k) (hv : l[k]? = some v) (m : Memory) :
    (pushedMem m sp l).read c = v := by
  rw [read_pushedMem _ _ _ _ hl, hc, hv, Option.getD_some]

/-- A cell that is none of those just below `sp` is not written. -/
theorem read_pushedMem_of_ne {l : List Byte} {sp c : Byte} (hl : l.length ≤ 256)
    (hc : ∀ k : Nat, 1 ≤ k → k ≤ l.length → c ≠ sp - BitVec.ofNat 8 k) (m : Memory) :
    (pushedMem m sp l).read c = m.read c := by
  have hout : l.length ≤ (sp - 1 - c).toNat := by
    by_contra hin
    apply hc ((sp - 1 - c).toNat + 1) (by omega) (by omega)
    rw [BitVec.ofNat_add, BitVec.ofNat_toNat, BitVec.setWidth_eq]
    bv_omega
  rw [read_pushedMem _ _ _ _ hl, List.getElem?_eq_none hout, Option.getD_none]

/-! ## The frame (R154) -/

/-- The frame is made up after IS is cleared: its last byte is 0x00. -/
theorem frameBytes_setReg_is (s : State) :
    frameBytes (s.setReg 6 0) =
      [pcByte s.pc, s.fl, s.reg 0, s.reg 1, s.reg 2, s.reg 3, s.reg 4, s.reg 5, 0] := by
  simp [frameBytes]

theorem frameBytes_setReg_is_getElem? (s : State) {r : RegIndex} (hr : r < 6) :
    (frameBytes (s.setReg 6 0))[r.val + 2]? = some (s.reg r) := by
  rw [frameBytes_setReg_is]
  obtain ⟨n, hn⟩ := r
  have hn6 : n < 6 := hr
  interval_cases n <;> rfl

/-! ## The step that enters -/

theorem interruptPoll_of_selectLine {tmr : Bool} {s : State} {i : RegIndex}
    (h : selectLine (sampleTimer tmr s).im (sampleTimer tmr s).is = some i) :
    interruptPoll tmr s = interruptEntry i (sampleTimer tmr s) := by
  rcases interruptPoll_cases tmr s with ⟨hnone, _⟩ | ⟨j, hj, e⟩
  · rw [h] at hnone; cases hnone
  · obtain rfl := Option.some.inj (h.symm.trans hj)
    exact e

/-- Settles O47: the state entry leads to, the frame bytes read below the old SP, the other cells, and the
fetch at the vector in the same step. -/
theorem interruptEntryPushesFrame : Obligations.InterruptEntryPushesFrame := by
  constructor
  · intro i s hroom
    have hl : (frameBytes (s.setReg 6 0)).length ≤ 256 := by simp
    refine ⟨_, interruptEntry_of_room i s hroom, rfl, ?_, ?_, fun r hr => ?_, ?_, fun c hc => ?_⟩
    · exact read_pushedMem_of_getElem? (k := 0) hl (by bv_omega) rfl _
    · exact read_pushedMem_of_getElem? (k := 1) hl (by bv_omega) rfl _
    · have hr6 : r.val < 6 := hr
      exact read_pushedMem_of_getElem? hl (by bv_omega) (frameBytes_setReg_is_getElem? s hr) _
    · exact read_pushedMem_of_getElem? (k := 8) hl (by bv_omega) (by rw [frameBytes_setReg_is]; rfl) _
    · exact read_pushedMem_of_ne hl hc _
  · intro i s t hs hsel hentry
    exact (step_of_iterates hs).1 t ((interruptPoll_of_selectLine hsel).trans hentry)

end Sys2Proof.Machine
end

section
/-! The decoder and the encoder (`30_encoding.md` R60 to R70), and what they make of the bytes at `pc`
(`40_dispatcher.md` R82, R83). -/

namespace Sys2Proof.Machine

/-! ## Decoding and encoding are inverse to each other -/

/-- Settles O15, by the operand count of the instruction. -/
theorem decodeOfEncode : Obligations.DecodeOfEncode := by
  intro h i rest ho
  have hne : ∀ {op : Byte}, operandCount op ≠ 0 → op ≠ h := ne_hltEnc_of_operandCount ho
  cases i with
  | hlt => exact decodeWith_no_operand (operandCount_of_hltEncOk ho) (if_pos rfl) rest
  | ret => exact decodeWith_no_operand rfl ((if_neg ho.2.symm).trans rfl) rest
  | prn a | pra a | not a | inc a | dec a | push a | pop a | call a | jmp a | jeq a | jne a =>
    exact decodeWith_one_operand rfl ((if_neg (hne (by decide))).trans rfl) rest
  | ldi a b | add a b | mul a b | cmp a b | and a b | or a b | xor a b | shl a b | shr a b | mod a b
  | st a b =>
    exact decodeWith_two_operands rfl ((if_neg (hne (by decide))).trans rfl) rest

/-- Every instruction has the fields of its opcode byte (R69). -/
theorem opcodeFields (i : Instr) : Laws.OpcodeFields.Statement i := by
  cases i with
  | hlt => exact Laws.OpcodeFields.hlt
  | ldi | prn | pra | add | mul | cmp | and | or | xor | not | shl | shr | mod | inc | dec | push | pop
  | call | ret | st | jmp | jeq | jne => exact fun _ _ => ⟨_, _, rfl, rfl, rfl, fun _ => rfl⟩

/-- The fields of a given encoding. -/
theorem fields_of_encodeWith {h ir : Byte} {operands : List Byte} {i : Instr} (ho : HltEncOk h)
    (he : encodeWith h i = ir :: operands) :
    operands.length = operandBytes i ∧ operandCount ir = operandBytes i ∧
      (i ≠ .hlt → directPcSet ir = writesPcItself i) := by
  obtain ⟨ir', operands', he', hfields⟩ := opcodeFields i h ho
  obtain ⟨rfl, rfl⟩ := List.cons.inj (he.symm.trans he')
  exact hfields

theorem encodeWith_length {h : Byte} (ho : HltEncOk h) (i : Instr) :
    (encodeWith h i).length = operandBytes i + 1 := by
  obtain ⟨ir, operands, he, hlen, -⟩ := opcodeFields i h ho
  rw [he, List.length_cons, hlen]

theorem operandBytes_le (i : Instr) : operandBytes i ≤ 2 := by
  cases i <;> simp [operandBytes]

/-- All a successful decode can be: opcode byte, announced operands, and the table's instruction for them. -/
theorem decodeWith_eq_ok {h : Byte} {bytes rest : List Byte} {i : Instr}
    (hd : decodeWith h bytes = .ok (i, rest)) :
    ∃ ir a b tail, bytes = ir :: tail ∧ takeOperands (operandCount ir) tail = some (a, b, rest) ∧
      decodeOpcode h ir a b = some i := by
  cases bytes with
  | nil => cases hd
  | cons ir tail =>
    rw [decodeWith] at hd
    split_ifs at hd
    split at hd
    · cases hd
    · next a b rest' hops =>
      split at hd
      · cases hd
      · next j hj => cases hd; exact ⟨ir, a, b, tail, rfl, hops, hj⟩

/-- Settles O16: the opcode byte and the operand bytes taken are the encoding, since the byte's operand
count is the instruction's. -/
theorem encodeOfDecode : Obligations.EncodeOfDecode := by
  intro h bytes rest i ho hd
  obtain ⟨ir, a, b, tail, rfl, hops, hi⟩ := decodeWith_eq_ok hd
  have he := decodeOpcode_eq_some hi
  have hn : operandCount ir = operandBytes i := (fields_of_encodeWith ho he).2.1
  rw [(takeOperands_eq_some hops).2, he, hn, List.cons_append]

/-- Settles O17: each word is evaluated. -/
theorem decodeTableWords : Obligations.DecodeTableWords := by
  unfold Obligations.DecodeTableWords; decide

/-! ## The legal opcode bytes (R64, R70) -/

/-- The opcode bytes of the table beside HLT_ENC. -/
def tableOpcodes : List Byte :=
  [0x82, 0x47, 0x48, 0xA0, 0xA2, 0xA7, 0xA8, 0xAA, 0xAB, 0x69, 0xAC, 0xAD, 0xA4, 0x65, 0x66, 0x45, 0x46,
    0x50, 0x11, 0x84, 0x54, 0x55, 0x56]

theorem tableOpcodes_nodup : tableOpcodes.Nodup := by decide

/-- A byte selects an instruction when it is HLT_ENC or in the table, whatever its operands. -/
theorem decodeOpcode_isSome (h ir a b : Byte) :
    (decodeOpcode h ir a b).isSome = (decide (ir = h) || decide (ir ∈ tableOpcodes)) := by
  simp only [decodeOpcode, tableOpcodes, apply_ite Option.isSome, Option.isSome_some, Option.isSome_none,
    Bool.if_true_left, List.mem_cons, List.not_mem_nil, Bool.decide_or, decide_false]

/-- Counting among all 256 bytes the ones of a list without duplicates gives its length. -/
theorem length_filter_range_of_mem_iff {p : Byte → Bool} {l : List Byte} (hl : l.Nodup)
    (hp : ∀ v, p v = true ↔ v ∈ l) :
    ((List.range 256).filter fun k => p (BitVec.ofNat 8 k)).length = l.length := by
  have hinj : ∀ k ∈ (List.range 256).filter fun k => p (BitVec.ofNat 8 k),
      (BitVec.ofNat 8 k).toNat = k := fun k hk =>
    (BitVec.toNat_ofNat k 8).trans (Nat.mod_eq_of_lt (List.mem_range.1 (List.mem_of_mem_filter hk)))
  have hmap : (((List.range 256).filter fun k => p (BitVec.ofNat 8 k)).map (BitVec.ofNat 8)).Perm l := by
    refine (List.perm_ext_iff_of_nodup (List.Nodup.map_on ?_ (List.nodup_range.filter _)) hl).2 fun v => ?_
    · intro j hj k hk hjk
      rw [← hinj j hj, ← hinj k hk, hjk]
    · rw [List.mem_map, ← hp]
      constructor
      · rintro ⟨k, hk, rfl⟩; exact (List.mem_filter.1 hk).2
      · intro hv
        exact ⟨v.toNat, List.mem_filter.2 ⟨List.mem_range.2 v.isLt, by simpa using hv⟩, by simp⟩
  rw [← hmap.length_eq, List.length_map]

/-- RET is the one byte of operand count 0 in the table. -/
theorem operandCount_eq_zero_of_mem_tableOpcodes :
    ∀ v ∈ tableOpcodes, operandCount v = 0 ↔ v = 0x11 := by decide

/-- With a legal HLT_ENC the legal opcode bytes that have operands are the table's. -/
theorem legal_iff_of_pos {h : Byte} (ho : HltEncOk h) {n : Nat} (hn : 0 < n) (a b v : Byte) :
    ((decodeOpcode h v a b).isSome && operandCount v == n) = true ↔
      v ∈ tableOpcodes.filter fun w => operandCount w == n := by
  have hh := operandCount_of_hltEncOk ho
  rw [decodeOpcode_isSome, List.mem_filter]
  simp only [Bool.and_eq_true, Bool.or_eq_true, decide_eq_true_eq, beq_iff_eq]
  constructor
  · rintro ⟨rfl | hv, hc⟩
    · omega
    · exact ⟨hv, hc⟩
  · exact fun ⟨hv, hc⟩ => ⟨.inr hv, hc⟩

/-- The legal opcode bytes without operands are HLT_ENC and RET. -/
theorem legal_zero_iff {h : Byte} (ho : HltEncOk h) (a b v : Byte) :
    ((decodeOpcode h v a b).isSome && operandCount v == 0) = true ↔ v ∈ [h, 0x11] := by
  have hh := operandCount_of_hltEncOk ho
  rw [decodeOpcode_isSome]
  simp only [Bool.and_eq_true, Bool.or_eq_true, decide_eq_true_eq, beq_iff_eq, List.mem_cons,
    List.not_mem_nil, or_false]
  constructor
  · rintro ⟨hv | hv, hc⟩
    · exact .inl hv
    · exact .inr ((operandCount_eq_zero_of_mem_tableOpcodes v hv).1 hc)
  · rintro (rfl | rfl)
    · exact ⟨.inl rfl, hh⟩
    · exact ⟨.inr (by decide), rfl⟩

/-- Settles O18: HLT_ENC adds one byte of count 0 to the 23 of the table. -/
theorem legalOpcodeCounts : Obligations.LegalOpcodeCounts := by
  intro h a b ho
  refine ⟨?_, ?_, ?_, ?_⟩
  · exact length_filter_range_of_mem_iff (l := [h, 0x11]) (by simpa using ho.2) (legal_zero_iff ho a b)
  · exact length_filter_range_of_mem_iff (tableOpcodes_nodup.filter _) (legal_iff_of_pos ho one_pos a b)
  · exact length_filter_range_of_mem_iff (tableOpcodes_nodup.filter _) (legal_iff_of_pos ho two_pos a b)
  · exact length_filter_range_of_mem_iff (tableOpcodes_nodup.filter _) (legal_iff_of_pos ho three_pos a b)

/-! ## Fetch and decode faults in their order (R82, R83) -/

theorem fetchBytes_length {s : State} (hpc : s.pc.toNat ≤ 0xFF) :
    (fetchBytes s).length = min 3 (256 - s.pc.toNat) := by
  rw [fetchBytes_eq]
  split_ifs <;> simp only [List.length_cons, List.length_nil] <;> omega

/-- The operands are missing exactly when more are announced than there are bytes. -/
theorem takeOperands_eq_none {n : Nat} {l : List Byte} (hn : n ≤ 2) :
    takeOperands n l = none ↔ l.length < n := by
  match n, l, hn with
  | 0, _, _ => simp [takeOperands]
  | 1, [], _ => simp [takeOperands]
  | 1, _ :: _, _ => simp [takeOperands]
  | 2, [], _ => simp [takeOperands]
  | 2, [_], _ => simp [takeOperands]
  | 2, _ :: _ :: _, _ => simp [takeOperands]

theorem decodeWith_count_three {h ir : Byte} (hn : operandCount ir = 3) (tail : List Byte) :
    decodeWith h (ir :: tail) = .error .illegalOpcode := by
  rw [decodeWith, if_pos hn]

theorem decodeWith_truncated {h ir : Byte} {tail : List Byte} (hn : operandCount ir ≠ 3)
    (hl : tail.length < operandCount ir) : decodeWith h (ir :: tail) = .error .truncated := by
  have := operandCount_le ir
  rw [decodeWith, if_neg hn, (takeOperands_eq_none (by omega)).2 hl]

theorem decodeWith_illegal {h ir : Byte} {tail : List Byte} (hn : operandCount ir ≠ 3)
    (hl : operandCount ir ≤ tail.length) (hi : ∀ i, (encodeWith h i).head? ≠ some ir) :
    decodeWith h (ir :: tail) = .error .illegalOpcode := by
  have := operandCount_le ir
  have hd : ∀ a b, decodeOpcode h ir a b = none := fun a b =>
    Option.eq_none_iff_forall_ne_some.2 fun i hdi => hi i (by rw [decodeOpcode_eq_some hdi]; rfl)
  rw [decodeWith, if_neg hn]
  cases hops : takeOperands (operandCount ir) tail with
  | none => exact absurd ((takeOperands_eq_none (by omega)).1 hops) (by omega)
  | some ops => simp only [hd]

/-- Settles O19: the fetched bytes are the opcode byte and as many more as lie at or below 0xFF. -/
theorem fetchAndDecodeFaults : Obligations.FetchAndDecodeFaults := by
  intro s _ hpc
  obtain ⟨tail, hf⟩ := fetchBytes_eq_cons hpc
  have hlen : tail.length + 1 = min 3 (256 - s.pc.toNat) := by rw [← fetchBytes_length hpc, hf]; rfl
  have hle := operandCount_le (byteAt s s.pc)
  have hfault : ∀ {r}, decodeWith s.hltEnc (byteAt s s.pc :: tail) = .error r →
      FaultsWith (rejectFault r) s (fetchExecute s) := fun h => faultsWith_of_reject (hf ▸ h)
  refine ⟨fun hn => ?_, fun hn htop => ?_, fun hn hfit hi => ?_⟩
  · exact hfault (decodeWith_count_three hn tail)
  · exact hfault (decodeWith_truncated hn (by omega))
  · exact hfault (decodeWith_illegal hn (by omega) hi)

end Sys2Proof.Machine
end

section
/-! Memory as data (`10_state.md` R23, `20_memory.md` R53) and the phases of a run around the iterations
(`70_reset_and_hazards.md` R170 to R173; `10_state.md` R27; `40_dispatcher.md` R81). -/

namespace Sys2Proof.Machine

/-! ## Canonical memories -/

/-- Where addresses rise, the lookup finds every cell. -/
theorem mem_iff_lookup {m : Memory} (hm : m.Pairwise fun c d => c.1 < d.1) (k : Nat) (v : Byte) :
    (k, v) ∈ m ↔ m.lookup k = some v := by
  induction m with
  | nil => simp
  | cons c rest ih =>
    obtain ⟨x, w⟩ := c
    obtain ⟨hx, hrest⟩ := List.pairwise_cons.1 hm
    rw [List.mem_cons, lookup_cons_if, ih hrest, Prod.mk.injEq]
    by_cases hk : k = x
    · subst hk
      have hnone : rest.lookup k ≠ some v := fun hl =>
        absurd (hx _ ((ih hrest).2 hl)) (Nat.lt_irrefl k)
      simp [hnone, eq_comm]
    · simp [hk]

/-- A canonical memory lists exactly the cells that read as something else than an unlisted one. -/
theorem mem_iff_read {m : Memory} (hm : m.wf) (k : Nat) (v : Byte) :
    (k, v) ∈ m ↔ k < 256 ∧ v ≠ unlistedByte ∧ m.read (BitVec.ofNat 8 k) = v := by
  obtain ⟨hsorted, hcells⟩ := hm
  constructor
  · intro hkv
    obtain ⟨hk, hv⟩ := hcells _ hkv
    refine ⟨hk, hv, ?_⟩
    rw [Memory.read, BitVec.toNat_ofNat, Nat.mod_eq_of_lt hk, (mem_iff_lookup hsorted k v).1 hkv,
      Option.getD_some]
  · rintro ⟨hk, hv, hread⟩
    rw [Memory.read, BitVec.toNat_ofNat, Nat.mod_eq_of_lt hk] at hread
    cases hl : m.lookup k with
    | none => rw [hl] at hread; exact absurd hread.symm hv
    | some w => rw [hl] at hread; exact (mem_iff_lookup hsorted k v).2 (hl.trans (congrArg some hread))

/-- Settles O13: the two lists have the same cells in the same order. -/
theorem canonicalMemoriesAreExtensional : Obligations.CanonicalMemoriesAreExtensional := by
  intro m n hm hn hread
  have hnodup : ∀ {l : Memory}, l.wf → l.Nodup := fun hl =>
    List.Pairwise.imp (fun hlt heq => absurd (congrArg Prod.fst heq) (Nat.ne_of_lt hlt)) hl.1
  have hperm : m.Perm n := (List.perm_ext_iff_of_nodup (hnodup hm) (hnodup hn)).2 fun ⟨k, v⟩ => by
    rw [mem_iff_read hm, mem_iff_read hn, hread]
  exact hperm.eq_of_pairwise (fun _ _ _ _ h h' => absurd (h.trans h') (Nat.lt_irrefl _)) hm.1 hn.1

/-- Settles O14: the store is in the memory that the fetch at `pc + 3` reads. -/
theorem storeSeenByNextFetch : Obligations.StoreSeenByNextFetch := by
  intro s ra rb hpc ha
  refine ⟨_, exec_st_regByte s ra rb, ?_⟩
  have hpc' : (s.pc + 3).toNat ≤ 0xFF := by bv_omega
  obtain ⟨rest, hf⟩ := fetchBytes_eq_cons (s := (s.writeMem (s.reg ra) (s.reg rb)).setPc (s.pc + 3)) hpc'
  rw [hf, List.head?_cons, byteAt, State.setPc_mem, State.setPc_pc, State.writeMem_mem, Memory.read_write,
    if_pos ha.symm]

/-! ## The step outside the iterations -/

/-- Settles O5: the branch of `stepOnce` with `rst`, which comes before the run state. -/
theorem rstResetsEveryRunState : Obligations.RstResetsEveryRunState := by
  intro s hr
  simp only [step, stepOnce, hr, if_true]
  rfl

/-- The fields of the state one sample in LOADING leads to. -/
theorem loadPhase_eq (p : Pins) (s : State) :
    loadPhase p s = { s with
      mem := if p.loadWe then s.mem.write p.loadAddr p.loadData else s.mem
      run := if p.start then .running else s.run } := by
  unfold loadPhase
  cases p.loadWe <;> cases p.start <;> rfl

/-- Settles O6: the branch of `stepOnce` in LOADING, by `loadPhase_eq`. -/
theorem loadingStepWritesMemoryOnly : Obligations.LoadingStepWritesMemoryOnly := by
  intro s hrun hr
  simp only [step, stepOnce, hr, hrun, loadPhase_eq, State.consume_run]
  rfl

/-- Settles O8: the step in each of the three terminal states. -/
theorem terminalStatesStay : Obligations.TerminalStatesStay := by
  intro s hterm hr
  change step s = .next s.consume
  cases hrun : s.run with
  | loading | running => rw [hrun] at hterm; cases hterm
  | halted | pcPastEnd | fault => simp [step, stepOnce, hr, hrun]

/-- Settles O9: the iteration that begins above 0xFF. -/
theorem runOffEndsTheRun : Obligations.RunOffEndsTheRun := by
  intro s hrun hr hpc
  simp only [step, stepOnce, hr, hrun]
  exact if_pos hpc

/-- Settles O12: outside LOADING the step uses `rst` and `tmr` of the sample and no other pin. -/
theorem loadPortDeadOutsideLoading : Obligations.LoadPortDeadOutsideLoading := by
  intro s p q rest hrun hrst htmr
  simp only [step, stepOnce, State.pins, State.consume, List.tail_cons, hrst, htmr]
  cases hr : s.run with
  | loading => exact absurd hr hrun
  | running | halted | pcPastEnd | fault => rfl

/-! ## Loading an image (R173) -/

/-- A run over the samples of an image's writes puts the image in memory and stays in LOADING. -/
theorem run_loadWrites (l : List Byte) (k : Nat) (a : Byte) (rest : List Pins) (s : State)
    (hrun : s.run = .loading) (hin : s.inputs = loadWrites a l ++ rest) :
    core.run (l.length + k) s = core.run k { s with
      mem := writeBytes s.mem a l, inputs := rest, draws := s.draws + l.length } := by
  induction l generalizing a s with
  | nil => subst hin; simp [writeBytes]
  | cons v tail ih =>
    have hpins : s.pins = loadPins a v := by rw [State.pins, hin]; rfl
    have hstep := loadingStepWritesMemoryOnly s hrun (by rw [hpins]; rfl)
    rw [hpins, hin] at hstep
    rw [List.length_cons, Nat.succ_add, core_run_succ hstep, ih (a + 1) _ rfl rfl]
    simp [loadPins, writeBytes, hrun, Nat.add_assoc, Nat.add_comm 1]

theorem loadWrites_length (a : Byte) (l : List Byte) : (loadWrites a l).length = l.length := by
  induction l generalizing a with
  | nil => rfl
  | cons v rest ih => rw [loadWrites, List.length_cons, ih, List.length_cons]

/-- Settles O7: the writes, by induction over the image, and then the step with `start`. -/
theorem loadScriptFillsMemory : Obligations.LoadScriptFillsMemory := by
  constructor
  · intro image hlen
    refine ⟨_, if_pos hlen, ?_⟩
    rw [List.length_append, loadWrites_length, run_loadWrites image _ 0x00 [startPins] _ rfl rfl]
    refine ⟨_, core_run_succ (loadingStepWritesMemoryOnly _ rfl rfl), fun a => ?_, ?_, rfl, rfl, rfl, rfl, rfl⟩
    · exact (read_writeBytes _ _ _ _ hlen).trans (by simp [State.reset])
    · exact wf_writeBytes Memory.wf_nil _ _
  · intro image hlen
    exact if_neg (Nat.not_le.2 hlen)

end Sys2Proof.Machine
end

section
/-! The remaining rules of single instructions: SHL, SHR, CMP (`41_alu.md` R103, R108, R109, R113), PRN, PRA,
HLT (`40_dispatcher.md` R87, R90, R91), POP and CALL (`42_stack_call.md` R123, R124, R126). -/

namespace Sys2Proof.Machine

/-! ## The ALU results as operations of fixed width (R113) -/

theorem aluAdd_eq (v w : Byte) : aluAdd v w = v + w := by
  rw [aluAdd_eq_ofNat]
  bv_omega

theorem aluMul_eq (v w : Byte) : aluMul v w = v * w := by
  rw [aluMul_eq_ofNat, BitVec.ofNat_mul, BitVec.ofNat_toNat, BitVec.ofNat_toNat, BitVec.setWidth_eq,
    BitVec.setWidth_eq]

theorem aluInc_eq (v : Byte) : aluInc v = v + 1 := by
  rw [aluInc_eq_ofNat]
  bv_omega

theorem aluDec_eq (v : Byte) : aluDec v = v - 1 := by
  rw [aluDec_eq_ofNat]
  bv_omega

theorem aluShl_eq (v w : Byte) : aluShl v w = v <<< w.toNat := by
  apply BitVec.eq_of_toNat_eq
  rw [aluShl, u8_natCast, BitVec.toNat_ofNat, BitVec.toNat_shiftLeft, Nat.shiftLeft_eq]

theorem aluShr_eq_ofNat (v w : Byte) : aluShr v w = BitVec.ofNat 8 (v.toNat / 2 ^ w.toNat) :=
  u8_natCast _

theorem aluShr_eq (v w : Byte) : aluShr v w = v >>> w.toNat := by
  apply BitVec.eq_of_toNat_eq
  rw [aluShr_eq_ofNat, BitVec.toNat_ofNat, BitVec.toNat_ushiftRight, Nat.shiftRight_eq_div_pow]
  exact Nat.mod_eq_of_lt ((Nat.div_le_self _ _).trans_lt v.isLt)

theorem aluNot_eq (v : Byte) : aluNot v = ~~~v := BitVec.xor_allOnes

theorem aluMod_toNat (v w : Byte) : (aluMod v w).toNat = v.toNat % w.toNat := by
  rw [aluMod_eq_ofNat, BitVec.toNat_ofNat]
  exact Nat.mod_eq_of_lt ((Nat.mod_le _ _).trans_lt v.isLt)

/-- Settles O26: the results one by one, and for MOD the remainder law of natural numbers. -/
theorem aluIsFixedWidthArithmetic : Obligations.AluIsFixedWidthArithmetic := by
  intro v w
  refine ⟨aluAdd_eq v w, aluMul_eq v w, aluInc_eq v, aluDec_eq v, aluShl_eq v w, aluShr_eq v w, aluNot_eq v,
    rfl, rfl, rfl, fun hw => ⟨?_, ?_, v.toNat / w.toNat, ?_⟩⟩
  · exact BitVec.eq_of_toNat_eq ((aluMod_toNat v w).trans (BitVec.toNat_umod ..).symm)
  · have hpos : 0 < w.toNat := Nat.pos_of_ne_zero fun h => hw (BitVec.eq_of_toNat_eq h)
    rw [aluMod_toNat]
    exact Nat.mod_lt _ hpos
  · rw [aluMod_toNat]
    exact (Nat.div_add_mod' v.toNat w.toNat).symm

/-! ## SHL, SHR, CMP -/

/-- An amount of 8 or more shifts every bit out (R108). -/
theorem aluShl_eq_ite (v w : Byte) : aluShl v w = if w.toNat < 8 then v <<< w.toNat else 0x00 := by
  rw [aluShl_eq]
  split
  · rfl
  · next h => exact BitVec.shiftLeft_eq_zero (Nat.le_of_not_lt h)

/-- An amount of 8 or more shifts every bit out (R109). -/
theorem div_two_pow_eq_zero (v : Byte) {n : Nat} (hn : 8 ≤ n) : v.toNat / 2 ^ n = 0 :=
  Nat.div_eq_of_lt (v.isLt.trans_le (Nat.pow_le_pow_right two_pos hn))

/-- Settles O23: the encodings, the shape of each instruction with its result, and the checks of the
operands. -/
theorem shiftRules : Obligations.ShiftRules := by
  refine ⟨⟨?_, ?_⟩, fun s ra rb => ⟨?_, ?_, div_two_pow_eq_zero _⟩, ?_, ?_⟩
  · exact encodedF2_of_decodeOpcode (by decide) fun _ _ _ hne => (if_neg hne).trans rfl
  · exact encodedF2_of_decodeOpcode (by decide) fun _ _ _ hne => (if_neg hne).trans rfl
  · rw [← aluShl_eq_ite]; exact aluBinary_regByte aluShl ra rb s
  · rw [← aluShr_eq_ofNat]; exact aluBinary_regByte aluShr ra rb s
  · exact checksRegs_of_effectOf _ fun _ _ _ => rfl
  · exact checksRegs_of_effectOf _ fun _ _ _ => rfl

theorem exec_cmp_regByte (s : State) (ra rb : RegIndex) : exec (.cmp (regByte ra) (regByte rb)) s =
    .next ((s.setFl (compareFlags s.fl (s.reg ra) (s.reg rb))).setPc (s.pc + 3)) := by
  rw [exec_eq_settle, effectOf, withRegs_regByte, settle_ok, State.advance_two, State.setFl_pc]

/-- Settles O25: the encoding, the one flag set, and the check of both operands. -/
theorem cmpRule : Obligations.CmpRule :=
  ⟨encodedF2_of_decodeOpcode (by decide) fun _ _ _ hne => (if_neg hne).trans rfl,
    exec_cmp_regByte,
    checksRegs_of_effectOf _ fun _ _ _ => rfl⟩

/-! ## PRN, PRA, HLT -/

theorem exec_prn_regByte (s : State) (r : RegIndex) :
    exec (.prn (regByte r)) s = .next ((s.emit .prn (s.reg r)).setPc (s.pc + 2)) := by
  rw [exec_eq_settle, effectOf, withReg_regByte, settle_ok, State.advance_one, State.emit_pc]

theorem exec_pra_regByte (s : State) (r : RegIndex) :
    exec (.pra (regByte r)) s = .next ((s.emit .pra (s.reg r)).setPc (s.pc + 2)) := by
  rw [exec_eq_settle, effectOf, withReg_regByte, settle_ok, State.advance_one, State.emit_pc]

/-- Settles O29: the encodings, the event of each kind, and the checks of the operand. -/
theorem printRules : Obligations.PrintRules := by
  refine ⟨⟨?_, ?_⟩, fun s r => ⟨exec_prn_regByte s r, exec_pra_regByte s r⟩, ?_, ?_⟩
  · exact encodedF1_of_decodeOpcode (by decide) fun _ _ hne => (if_neg hne).trans rfl
  · exact encodedF1_of_decodeOpcode (by decide) fun _ _ hne => (if_neg hne).trans rfl
  · exact checksReg_of_effectOf _ fun _ _ => rfl
  · exact checksReg_of_effectOf _ fun _ _ => rfl

/-- Settles O30: the effect, and the byte HLT_ENC, which takes no operand. -/
theorem hltRule : Obligations.HltRule := by
  refine ⟨fun _ => rfl, fun s ho hpc hop => ?_⟩
  obtain ⟨rest, hf⟩ := fetchBytes_eq_cons hpc
  refine fetchExecute_of_decode (i := .hlt) (rest := rest) ?_
  rw [hf, hop]
  exact decodeOfEncode s.hltEnc .hlt rest ho

/-! ## POP (R123) -/

theorem effectOf_pop_regByte (s : State) (r : RegIndex) : effectOf (.pop (regByte r)) s =
    (stepSpUp (s.setReg r (s.mem.read s.sp))).andThen fun u => .ok (u.advance 1) := by
  rw [effectOf, withReg_regByte]

/-- SP is tested and incremented as it is once the register is written. -/
theorem exec_pop_of_ne_top {s : State} {r : RegIndex} (h : (s.setReg r (s.mem.read s.sp)).sp ≠ 0xFF) :
    exec (.pop (regByte r)) s = .next (((s.setReg r (s.mem.read s.sp)).setReg 7
      ((s.setReg r (s.mem.read s.sp)).sp + 1)).setPc (s.pc + 2)) := by
  rw [exec_eq_settle, effectOf_pop_regByte, stepSpUp_eq_ok.2 ⟨h, rfl⟩, Effect.andThen_ok, settle_ok,
    State.advance_one, State.setReg_pc, State.setReg_pc, State.sp_eq (State.setReg ..)]

theorem effectOf_pop_of_eq_top {s : State} {r : RegIndex} (h : (s.setReg r (s.mem.read s.sp)).sp = 0xFF) :
    effectOf (.pop (regByte r)) s = .error .stackRange := by
  rw [effectOf_pop_regByte, stepSpUp_eq_error.2 ⟨h, rfl⟩, Effect.andThen_error]

/-- The SP that POP increments: the popped byte for R7, SP as it was for another register. -/
theorem sp_setReg (s : State) (r : RegIndex) (v : Byte) :
    (s.setReg r v).sp = if r = 7 then v else s.sp :=
  State.setReg_reg s r 7 v

theorem exec_pop_of_ne_seven {s : State} {r : RegIndex} (hr : r ≠ 7) (h : s.sp ≠ 0xFF) :
    exec (.pop (regByte r)) s =
      .next (((s.setReg r (s.mem.read s.sp)).setReg 7 (s.sp + 1)).setPc (s.pc + 2)) := by
  have hsp := (sp_setReg s r (s.mem.read s.sp)).trans (if_neg hr)
  rw [exec_pop_of_ne_top (by rwa [hsp]), hsp]

/-- The two writes of R7 by POP R7 leave the second. -/
theorem setReg_setReg (s : State) (r : RegIndex) (v w : Byte) : (s.setReg r v).setReg r w = s.setReg r w := by
  simp [State.setReg]

theorem exec_pop_seven {s : State} (h : s.mem.read s.sp ≠ 0xFF) :
    exec (.pop (regByte 7)) s = .next ((s.setReg 7 (s.mem.read s.sp + 1)).setPc (s.pc + 2)) := by
  have hsp := (sp_setReg s 7 (s.mem.read s.sp)).trans (if_pos rfl)
  rw [exec_pop_of_ne_top (by rwa [hsp]), hsp, setReg_setReg]

/-- PUSH and then POP of a register other than R7 leaves every register as it was. -/
theorem exec_push_pop {s : State} {r : RegIndex} (hr : r ≠ 7) (hsp : s.sp ≠ 0x00) :
    ∃ t u, exec (.push (regByte r)) s = .next t ∧ exec (.pop (regByte r)) t = .next u ∧ u.regs = s.regs := by
  refine ⟨_, _, exec_push_of_ne_zero hsp r, exec_pop_of_ne_seven hr ?_, State.regs_ext fun q => ?_⟩
  · simp only [State.sp_eq, State.setPc_reg, State.writeMem_reg, State.setReg_reg, if_true]
    have h0 : s.reg 7 ≠ 0x00 := hsp
    bv_omega
  · simp only [State.sp_eq, State.setPc_reg, State.setPc_mem, State.writeMem_reg, State.writeMem_mem,
      State.setReg_reg, Memory.read_write, if_true, if_neg hr]
    by_cases h7 : (7 : RegIndex) = q
    · rw [if_pos h7, ← h7, BitVec.sub_add_cancel]
    · by_cases hrq : r = q
      · rw [if_neg h7, if_pos hrq, hrq]
      · rw [if_neg h7, if_neg hrq, if_neg h7]

/-- Settles O32: the encoding, POP of R7 and of another register with and without room, PUSH and then POP,
and the check of the operand. -/
theorem popRule : Obligations.PopRule := by
  refine ⟨?_, fun s r hr hsp => exec_pop_of_ne_seven hr hsp, fun s r hr hsp => ?_,
    fun s hv => exec_pop_seven hv, fun s hv => ?_, fun s r hr hsp => exec_push_pop hr hsp, ?_⟩
  · exact encodedF1_of_decodeOpcode (by decide) fun _ _ hne => (if_neg hne).trans rfl
  · apply faultsWith_of_effectOf_error
    exact effectOf_pop_of_eq_top ((sp_setReg s r _).trans ((if_neg hr).trans hsp))
  · apply faultsWith_of_effectOf_error
    exact effectOf_pop_of_eq_top ((sp_setReg s 7 _).trans ((if_pos rfl).trans hv))
  · exact checksReg_of_effectOf _ fun _ _ => rfl

/-! ## CALL (R124) and a later RET (R126) -/

theorem effectOf_call_regByte (s : State) (r : RegIndex) : effectOf (.call (regByte r)) s =
    if 0xFF < (s.pc + 2).toNat then .error .retaddrRange
    else (push (pcByte (s.pc + 2)) s).andThen fun u => .ok (u.setPc (zext9 (u.reg r))) := by
  rw [effectOf, withReg_regByte]

/-- The target is the register's value once SP is decremented. -/
theorem exec_call_of_room {s : State} (hpc : s.pc.toNat ≤ 0xFD) (hsp : s.sp ≠ 0x00) (r : RegIndex) :
    exec (.call (regByte r)) s = .next (((s.setReg 7 (s.sp - 1)).writeMem (s.sp - 1)
      (BitVec.ofNat 8 (s.pc.toNat + 2))).setPc (zext9 (if r = 7 then s.sp - 1 else s.reg r))) := by
  have hret : pcByte (s.pc + 2) = BitVec.ofNat 8 (s.pc.toNat + 2) := pcByte_add s.pc 2
  rw [exec_eq_settle, effectOf_call_regByte, if_neg (by bv_omega), push_of_ne hsp, Effect.andThen_ok,
    settle_ok, hret]
  simp [eq_comm (a := r)]

theorem effectOf_call_of_return_past_end {s : State} (hpc : s.pc.toNat = 0xFE) (r : RegIndex) :
    effectOf (.call (regByte r)) s = .error .retaddrRange := by
  rw [effectOf_call_regByte, if_pos (by bv_omega)]

theorem effectOf_call_of_no_room {s : State} (hpc : s.pc.toNat ≤ 0xFD) (hsp : s.sp = 0x00) (r : RegIndex) :
    effectOf (.call (regByte r)) s = .error .stackRange := by
  rw [effectOf_call_regByte, if_neg (by bv_omega), push_of_eq hsp, Effect.andThen_error]

/-- Settles O33: the encoding, the push and the jump with what reads after it give, the two faults, and the
check of the operand. -/
theorem callRule : Obligations.CallRule := by
  refine ⟨?_, fun s r hpc hsp => ⟨_, exec_call_of_room hpc hsp r, rfl, ?_, fun c hc => ?_⟩,
    fun s r hpc => ?_, fun s r hpc hsp => ?_, ?_⟩
  · exact encodedF1_of_decodeOpcode (by decide) fun _ _ hne => (if_neg hne).trans rfl
  · exact (Memory.read_write _ _ _ _).trans (if_pos rfl)
  · exact (Memory.read_write _ _ _ _).trans (if_neg hc)
  · exact faultsWith_of_effectOf_error (effectOf_call_of_return_past_end hpc r)
  · exact faultsWith_of_effectOf_error (effectOf_call_of_no_room hpc hsp r)
  · exact checksReg_of_effectOf _ fun _ _ => rfl

/-- Settles O35: the cell at the SP the CALL leaves holds `pc + 2`, and that SP is below 0xFF. -/
theorem callThenRetReturns : Obligations.CallThenRetReturns := by
  intro s t u r hpc hsp hcall husp hucell
  have ht := (exec_call_of_room hpc hsp r).symm.trans hcall
  cases ht
  have htsp : u.sp = s.sp - 1 := husp.trans (by simp)
  have hcell : u.mem.read u.sp = BitVec.ofNat 8 (s.pc.toNat + 2) := by
    rw [husp, hucell]; simp
  refine ⟨_, exec_ret_of_ne_top (s := u) ?_, ?_, ?_⟩
  · rw [htsp]
    bv_omega
  · rw [State.setPc_pc, hcell, zext9]
    bv_omega
  · rw [State.sp_eq, State.setPc_reg, State.setReg_reg, if_pos rfl, htsp, BitVec.sub_add_cancel]

end Sys2Proof.Machine
end

section
/-! Frames over all instructions (`10_state.md` R14, R19, `20_memory.md` R42, `40_dispatcher.md` R85) and the
faults an instruction can raise (`60_exceptions.md` R141, R143, items 5 and 6). -/

namespace Sys2Proof.Machine

/-! ## Register operands -/

theorem regByte_inj {r q : RegIndex} : regByte r = regByte q ↔ r = q := by
  constructor
  · intro h; exact Option.some.inj (by rw [← regOf_regByte r, h, regOf_regByte])
  · rintro rfl; rfl

theorem regByte_eq_seven {r : RegIndex} : regByte r = 7 ↔ r = 7 := regByte_inj (q := 7)

/-- What the ALU instructions with one operand have in common. -/
theorem unary_fields {mk : Byte → Instr} (hm : mk ∈ [Instr.not, .inc, .dec]) (a : Byte) :
    writtenRegs (mk a) = [a] ∧ writesPcItself (mk a) = false ∧ operandBytes (mk a) = 1 := by
  simp only [List.mem_cons, List.not_mem_nil, or_false] at hm
  rcases hm with rfl | rfl | rfl <;> exact ⟨rfl, rfl, rfl⟩

/-- What the ALU instructions with two operands that write a register have in common. -/
theorem binary_fields {mk : Byte → Byte → Instr}
    (hm : mk ∈ [Instr.add, .mul, .and, .or, .xor, .shl, .shr, .mod]) (a b : Byte) :
    writtenRegs (mk a b) = [a] ∧ writesPcItself (mk a b) = false ∧ operandBytes (mk a b) = 2 := by
  simp only [List.mem_cons, List.not_mem_nil, or_false] at hm
  rcases hm with rfl | rfl | rfl | rfl | rfl | rfl | rfl | rfl <;> exact ⟨rfl, rfl, rfl⟩

/-! ## Registers -/

/-- A register that is not among those listed is not the one written. -/
theorem setReg_reg_of_not_mem {l : List Byte} {r q : RegIndex} (hr : regByte r ∉ l) (hq : regByte q ∈ l)
    (s : State) (v : Byte) : (s.setReg q v).reg r = s.reg r := by
  have hne : q ≠ r := by rintro rfl; exact hr hq
  rw [State.setReg_reg, if_neg hne]

theorem Ran.reg_eq {i : Instr} {s t : State} {r : RegIndex} (h : Ran s i t) (hr : regByte r ∉ writtenRegs i) :
    t.reg r = s.reg r := by
  cases h with
  | ldi q imm => exact setReg_reg_of_not_mem hr (List.mem_singleton_self _) _ _
  | unary mk hm q v =>
    rw [(unary_fields hm _).1] at hr
    exact setReg_reg_of_not_mem hr (List.mem_singleton_self _) _ _
  | binary mk hm q rb v =>
    rw [(binary_fields hm _ _).1] at hr
    exact setReg_reg_of_not_mem hr (List.mem_singleton_self _) _ _
  | push | call | ret => exact setReg_reg_of_not_mem (q := 7) hr (List.mem_singleton_self _) _ _
  | pop q =>
    exact (setReg_reg_of_not_mem (q := 7) hr (by simp [writtenRegs, regByte_eq_seven.2]) _ _).trans
      (setReg_reg_of_not_mem hr (by simp [writtenRegs]) _ _)
  | hlt | prn | pra | cmp | st | jmp | jeq | jne => rfl

/-- Settles O38, by `Ran.reg_eq`. -/
theorem registerFrame : Obligations.RegisterFrame :=
  fun _ _ _ _ _ hexec ht hr => (ran_of_exec hexec ht).reg_eq hr

/-! ## Memory -/

/-- An instruction writes the cell at its store address or no cell. -/
theorem Ran.mem_cases {i : Instr} {s t : State} (h : Ran s i t) :
    t.mem = s.mem ∨ ∃ a v, storeAddress i s = some a ∧ t.mem = s.mem.write a v := by
  cases h with
  | st ra rb => exact .inr ⟨_, _, by rw [storeAddress, regOf_regByte]; rfl, rfl⟩
  | push | call => exact .inr ⟨_, _, rfl, rfl⟩
  | hlt | ldi | prn | pra | unary | binary | cmp | pop | ret | jmp | jeq | jne => exact .inl rfl

/-- Settles O39: the one cell an instruction can write is the one at its store address. -/
theorem memoryFrame : Obligations.MemoryFrame := by
  intro i s t c _ hexec ht hc
  rcases (ran_of_exec hexec ht).mem_cases with hmem | ⟨a, v, ha, hmem⟩
  · rw [hmem]
  · have hca : c ≠ a := by rintro rfl; exact hc ha
    rw [hmem, Memory.read_write, if_neg hca]

/-! ## The other fields -/

theorem Ran.frame {i : Instr} {s t : State} (h : Ran s i t) :
    t.faultCode = s.faultCode ∧ t.faultPc = s.faultPc ∧ t.inputs = s.inputs ∧ t.draws = s.draws ∧
      t.hltEnc = s.hltEnc := by
  cases h <;> exact ⟨rfl, rfl, rfl, rfl, rfl⟩

/-- HLT changes `run` and nothing else; the others do not change `run`. -/
theorem Ran.run_cases {i : Instr} {s t : State} (h : Ran s i t) :
    (i = .hlt ∧ t = s.setRun .halted) ∨ t.run = s.run := by
  cases h with
  | hlt => exact .inl ⟨rfl, rfl⟩
  | _ => exact .inr rfl

/-- Settles O40: the record and the inputs by `Ran.frame`, `run` by `Ran.run_cases`, the output stream by
`exec_output_cases`. -/
theorem restOfStateFrame : Obligations.RestOfStateFrame := by
  intro i s t hrun hexec ht
  have hran := ran_of_exec hexec ht
  obtain ⟨hcode, hpc, hin, hdraws, hhlt⟩ := hran.frame
  refine ⟨hcode, hpc, hin, hdraws, hhlt, fun hi => ?_, fun hi => ?_⟩
  · rcases hran.run_cases with ⟨rfl, -⟩ | h
    · exact absurd rfl hi
    · exact h.trans hrun
  · rcases exec_output_cases hexec with ⟨r, rfl, -⟩ | ⟨r, rfl, -⟩ | ⟨-, h⟩
    · exact absurd rfl (hi _).1
    · exact absurd rfl (hi _).2
    · exact h

/-- CMP sets a flag; the others do not change the flags. -/
theorem Ran.fl_cases {i : Instr} {s t : State} (h : Ran s i t) :
    (∃ a b v w, i = .cmp a b ∧ t.fl = compareFlags s.fl v w) ∨ t.fl = s.fl := by
  cases h with
  | cmp ra rb => exact .inl ⟨_, _, _, _, rfl, rfl⟩
  | _ => exact .inr rfl

/-! ## The program counter -/

/-- Where the instructions that write `pc` themselves lead (R124, R125, R130 to R132). -/
def WritesPc (i : Instr) (s t : State) : Prop :=
  (∃ r, i = .jmp (regByte r) ∧ t.pc = zext9 (s.reg r)) ∨
  (∃ r, i = .jeq (regByte r) ∧ t.pc = if equalSet s.fl then zext9 (s.reg r) else s.pc + 2) ∨
  (∃ r, i = .jne (regByte r) ∧ t.pc = if equalSet s.fl then s.pc + 2 else zext9 (s.reg r)) ∨
  (∃ r, i = .call (regByte r) ∧ t.pc = zext9 (t.reg r)) ∨
  (i = .ret ∧ t.pc = zext9 (s.mem.read s.sp))

/-- All an instruction can do to `pc`: HLT leaves it, the default advance, what its own rule writes. -/
theorem Ran.pc_cases {i : Instr} {s t : State} (h : Ran s i t) :
    (i = .hlt ∧ t.pc = s.pc) ∨
    (writesPcItself i = false ∧ t.pc = s.pc + 1 + BitVec.ofNat 9 (operandBytes i)) ∨
    (writesPcItself i = true ∧ WritesPc i s t) := by
  cases h with
  | hlt => exact .inl ⟨rfl, rfl⟩
  | ldi | prn | pra | cmp | st | push | pop => exact .inr (.inl ⟨rfl, rfl⟩)
  | unary mk hm r v =>
    obtain ⟨-, hpc, hn⟩ := unary_fields hm (regByte r)
    exact .inr (.inl ⟨hpc, by rw [hn]; rfl⟩)
  | binary mk hm ra rb v =>
    obtain ⟨-, hpc, hn⟩ := binary_fields hm (regByte ra) (regByte rb)
    exact .inr (.inl ⟨hpc, by rw [hn]; rfl⟩)
  | jmp r => exact .inr (.inr ⟨rfl, .inl ⟨r, rfl, rfl⟩⟩)
  | jeq r => exact .inr (.inr ⟨rfl, .inr (.inl ⟨r, rfl, rfl⟩)⟩)
  | jne r =>
    refine .inr (.inr ⟨rfl, .inr (.inr (.inl ⟨r, rfl, ?_⟩))⟩)
    cases he : equalSet s.fl <;> simp
  | call r => exact .inr (.inr ⟨rfl, .inr (.inr (.inr (.inl ⟨r, rfl, rfl⟩)))⟩)
  | ret => exact .inr (.inr ⟨rfl, .inr (.inr (.inr (.inr ⟨rfl, rfl⟩)))⟩)

/-- Settles O37: bit 4 of the opcode byte says whether the instruction writes `pc` itself, its high bits how
far the default advance goes. -/
theorem programCounterAfterInstruction : Obligations.ProgramCounterAfterInstruction := by
  intro h ir operands i s t ho he _ hpc hexec ht
  obtain ⟨-, hcount, hdirect⟩ := fields_of_encodeWith ho he
  rcases (ran_of_exec hexec ht).pc_cases with ⟨rfl, hhlt⟩ | ⟨hw, hadv⟩ | ⟨hw, hwrite⟩
  · exact ⟨fun _ => hhlt, fun _ hne => absurd rfl hne, fun _ hne => absurd rfl hne⟩
  · refine ⟨fun hi => ?_, fun _ _ => ?_, fun hd hi => ?_⟩
    · subst hi; cases hexec; rfl
    · have hle := operandCount_le ir
      rw [hadv, ← hcount]
      bv_omega
    · rw [hdirect hi, hw] at hd; cases hd
  · refine ⟨fun hi => ?_, fun hd hi => ?_, fun _ _ => hwrite⟩
    · subst hi; cases hw
    · rw [hdirect hi, hw] at hd; cases hd

/-! ## Faults -/

/-- Settles O43: the register check comes before the rest of the effect. -/
theorem illFormedInstructionsFault : Obligations.IllFormedInstructionsFault := by
  intro i s hwf
  have hgt : ∀ {a : Byte}, isRegByte a = false → 7 < a.toNat := fun h =>
    Nat.le_of_not_lt (of_decide_eq_false h)
  apply faultsWith_of_effectOf_error
  cases i with
  | hlt | ret => cases hwf
  | ldi a imm => exact withReg_of_gt (hgt hwf) _
  | prn a | pra a | not a | inc a | dec a | push a | pop a | call a | jmp a | jeq a | jne a =>
    exact withReg_of_gt (hgt hwf) _
  | add a b | mul a b | cmp a b | and a b | or a b | xor a b | shl a b | shr a b | mod a b | st a b =>
    exact withRegs_of_gt ((Bool.and_eq_false_iff.1 hwf).imp hgt hgt) _

theorem withReg_error_of_isRegByte {a : Byte} {k : RegIndex → Effect} {c : FaultCode}
    (ha : isRegByte a = true) (h : withReg a k = .error c) : ∃ r, a = regByte r ∧ k r = .error c := by
  rcases withReg_eq_error.1 h with hk | ⟨hill, -⟩
  · exact hk
  · rw [ha] at hill; cases hill

theorem withRegs_error_of_isRegByte {a b : Byte} {k : RegIndex → RegIndex → Effect} {c : FaultCode}
    (hab : (isRegByte a && isRegByte b) = true) (h : withRegs a b k = .error c) :
    ∃ ra rb, a = regByte ra ∧ b = regByte rb ∧ k ra rb = .error c := by
  obtain ⟨ha, hb⟩ := Bool.and_eq_true_iff.1 hab
  obtain ⟨ra, rfl, hka⟩ := withReg_error_of_isRegByte ha h
  obtain ⟨rb, rfl, hkb⟩ := withReg_error_of_isRegByte hb hka
  exact ⟨ra, rb, rfl, rfl, hkb⟩

/-- What a legal CALL faults with: the return address is checked before the push. -/
theorem effectOf_call_error {s : State} {r : RegIndex} {c : FaultCode}
    (h : effectOf (.call (regByte r)) s = .error c) :
    (c = .retaddrRange ∧ 0xFF < (s.pc + 2).toNat) ∨
      (c = .stackRange ∧ ¬ 0xFF < (s.pc + 2).toNat ∧ s.sp = 0x00) := by
  rw [effectOf_call_regByte] at h
  split at h
  · next hp => cases h; exact .inl ⟨rfl, hp⟩
  · next hp =>
    rcases Effect.andThen_eq_error.1 h with hpush | ⟨u, -, hk⟩
    · obtain ⟨hsp, rfl⟩ := pushWith_eq_error.1 hpush
      exact .inr ⟨rfl, hp, hsp⟩
    · cases hk

/-- All the faults of an instruction whose operands are legal. -/
theorem effectOf_error_cases {i : Instr} {s : State} {c : FaultCode} (hwf : i.wf = true)
    (h : effectOf i s = .error c) :
    (∃ ra rb, i = .mod (regByte ra) (regByte rb) ∧ c = .divZero ∧ s.reg rb = 0x00) ∨
    (∃ r, i = .push (regByte r) ∧ c = .stackRange ∧ s.sp = 0x00) ∨
    (∃ r, i = .pop (regByte r) ∧ c = .stackRange ∧ (s.setReg r (s.mem.read s.sp)).sp = 0xFF) ∨
    (∃ r, i = .call (regByte r) ∧ c = .retaddrRange ∧ 0xFF < (s.pc + 2).toNat) ∨
    (∃ r, i = .call (regByte r) ∧ c = .stackRange ∧ ¬ 0xFF < (s.pc + 2).toNat ∧ s.sp = 0x00) ∨
    (i = .ret ∧ c = .stackRange ∧ s.sp = 0xFF) := by
  cases i with
  | hlt => cases h
  | ldi a imm => obtain ⟨r, -, hk⟩ := withReg_error_of_isRegByte hwf h; cases hk
  | prn a | pra a | not a | inc a | dec a | jmp a | jeq a | jne a =>
    obtain ⟨r, -, hk⟩ := withReg_error_of_isRegByte hwf h; cases hk
  | add a b | mul a b | cmp a b | and a b | or a b | xor a b | shl a b | shr a b | st a b =>
    obtain ⟨ra, rb, -, -, hk⟩ := withRegs_error_of_isRegByte hwf h; cases hk
  | mod a b =>
    obtain ⟨ra, rb, rfl, rfl, hk⟩ := withRegs_error_of_isRegByte hwf h
    split at hk <;> cases hk
    next hz => exact .inl ⟨ra, rb, rfl, rfl, hz⟩
  | push a =>
    obtain ⟨r, rfl, hk⟩ := withReg_error_of_isRegByte hwf h
    rcases Effect.andThen_eq_error.1 hk with hpush | ⟨u, -, hk⟩
    · obtain ⟨hsp, rfl⟩ := pushWith_eq_error.1 hpush
      exact .inr (.inl ⟨r, rfl, rfl, hsp⟩)
    · cases hk
  | pop a =>
    obtain ⟨r, rfl, hk⟩ := withReg_error_of_isRegByte hwf h
    rcases Effect.andThen_eq_error.1 hk with hup | ⟨u, -, hk⟩
    · obtain ⟨hsp, rfl⟩ := stepSpUp_eq_error.1 hup
      exact .inr (.inr (.inl ⟨r, rfl, rfl, hsp⟩))
    · cases hk
  | call a =>
    obtain ⟨r, rfl, -⟩ := withReg_error_of_isRegByte hwf h
    rcases effectOf_call_error h with ⟨rfl, hp⟩ | ⟨rfl, hp, hsp⟩
    · exact .inr (.inr (.inr (.inl ⟨r, rfl, rfl, hp⟩)))
    · exact .inr (.inr (.inr (.inr (.inl ⟨r, rfl, rfl, hp, hsp⟩))))
  | ret =>
    rcases Effect.andThen_eq_error.1 h with hup | ⟨u, -, hk⟩
    · obtain ⟨hsp, rfl⟩ := stepSpUp_eq_error.1 hup
      exact .inr (.inr (.inr (.inr (.inr ⟨rfl, rfl, hsp⟩))))
    · cases hk

/-- A RUNNING instruction ends in FAULT only by its own fault. -/
theorem effectOf_error_of_exec {i : Instr} {s t : State} (hrun : s.run = .running) (h : exec i s = .next t)
    (ht : t.run = .fault) : ∃ c, effectOf i s = .error c ∧ t = s.raiseFault c := by
  rcases exec_eq_next.1 h with hok | herr
  · rcases (ran_of_effect hok).run_cases with ⟨-, rfl⟩ | hr
    · cases ht
    · rw [hr, hrun] at ht; cases ht
  · exact herr

/-- Settles O44: the fault is one of `effectOf_error_cases`. -/
theorem wellFormedInstructionFaults : Obligations.WellFormedInstructionFaults := by
  intro i s t hwf hrun hpc hexec ht
  obtain ⟨c, herr, rfl⟩ := effectOf_error_of_exec hrun hexec ht
  refine ⟨faultsWith_of_effectOf_error herr, ?_⟩
  rcases effectOf_error_cases hwf herr with ⟨ra, rb, rfl, hc, hz⟩ | ⟨r, rfl, hc, hsp⟩ | ⟨r, rfl, hc, hsp⟩ |
    ⟨r, rfl, hc, hp⟩ | ⟨r, rfl, hc, hp, hsp⟩ | ⟨rfl, hc, hsp⟩
  · exact .inl ⟨_, rb, rfl, hc, hz⟩
  · exact .inr (.inl ⟨_, rfl, hc, hsp⟩)
  · refine .inr (.inr (.inl ⟨_, rfl, hc, ?_⟩))
    simp only [regByte_eq_seven]
    exact (sp_setReg s r _).symm.trans hsp
  · exact .inr (.inr (.inr (.inl ⟨_, rfl, hc, by bv_omega⟩)))
  · exact .inr (.inr (.inr (.inr (.inl ⟨_, rfl, hc, by bv_omega, hsp⟩))))
  · exact .inr (.inr (.inr (.inr (.inr ⟨rfl, hc, hsp⟩))))

end Sys2Proof.Machine
end

section
/-! The interrupt poll (`60_exceptions.md` R151 to R159) and the iteration it begins (`40_dispatcher.md`
R80). -/

namespace Sys2Proof.Machine

/-! ## The timer sample (R151) -/

/-- Settles O45, by the two values of `tmr`. -/
theorem timerSampleSetsBitZero : Obligations.TimerSampleSetsBitZero := by
  intro s
  unfold sampled
  cases s.pins.tmr with
  | false => exact sampleTimer_false s.consume
  | true => rfl

/-- The timer sample writes IS and no other register. -/
theorem sampleTimer_reg_of_ne (tmr : Bool) (s : State) {r : RegIndex} (hr : r ≠ 6) :
    (sampleTimer tmr s).reg r = s.reg r :=
  (State.setReg_reg s 6 r _).trans (if_neg hr.symm)

/-! ## Which line is entered (R153, R155) -/

theorem selectLine_eq_none {im is : Byte} (h : im &&& is = 0x00) : selectLine im is = none := by
  refine Option.eq_none_iff_forall_ne_some.2 fun i hi => ?_
  have hbit := (selectLine_eq_some.1 hi).1
  rw [h] at hbit
  simp at hbit

/-- Settles O46: the line of `selectLine_eq_some`, and the iteration. -/
theorem pollEntersLowestEnabledLine : Obligations.PollEntersLowestEnabledLine := by
  refine ⟨fun tmr s i hi hlow => ?_, fun tmr s hnone => ?_, fun s hs => ⟨(step_of_iterates hs).1, fun c hc => ?_⟩⟩
  · exact interruptPoll_of_selectLine (selectLine_eq_some.2 ⟨hi, hlow⟩)
  · simp only [interruptPoll, selectLine_eq_none hnone]
  · rw [(step_of_iterates hs).2 c hc]
    exact faultsWith_raiseFault c s.consume

/-- Settles O48: there is no room for the nine bytes of the frame. -/
theorem interruptEntryOverflowFaults : Obligations.InterruptEntryOverflowFaults := by
  intro s i hs hsel hsp
  have hsp' : (sampled s).sp.toNat < 9 := by
    rwa [State.sp_eq, sampled, sampleTimer_reg_of_ne _ _ (by decide)]
  have hpoll := (interruptPoll_of_selectLine hsel).trans (interruptEntry_of_no_room i _ hsp')
  exact (pollEntersLowestEnabledLine.2.2 s hs).2 _ hpoll

/-- Settles O49: each of the eight lines is evaluated. -/
theorem vectorSlots : Obligations.VectorSlots := by
  unfold Obligations.VectorSlots; decide

/-! ## What the poll changes (R154) -/

/-- The state interrupt entry for line `i` leads to when there is room for the frame. -/
def entered (i : RegIndex) (s : State) : State :=
  { s with
    regs := (s.regs.set 6 0x00).set 7 (s.sp - 9)
    mem := pushedMem s.mem s.sp (frameBytes (s.setReg 6 0))
    pc := zext9 ((pushedMem s.mem s.sp (frameBytes (s.setReg 6 0))).read (vectorAddress i)) }

theorem entered_reg (i : RegIndex) (s : State) (r : RegIndex) :
    (entered i s).reg r = if 7 = r then s.sp - 9 else if 6 = r then 0x00 else s.reg r := by
  rw [← State.setReg_reg s 6 r 0x00, ← State.setReg_reg (s.setReg 6 0x00) 7 r (s.sp - 9)]
  rfl

/-- All a poll that does not fault can do: the timer sample alone, or the entry of the line selected. -/
theorem interruptPoll_ok {tmr : Bool} {s t : State} (h : interruptPoll tmr s = .ok t) :
    t = sampleTimer tmr s ∨ ∃ i, 9 ≤ (sampleTimer tmr s).sp.toNat ∧ t = entered i (sampleTimer tmr s) := by
  rcases interruptPoll_cases tmr s with ⟨-, e⟩ | ⟨i, -, e⟩
  · exact .inl (Except.ok.inj (h.symm.trans e))
  · by_cases hroom : 9 ≤ (sampleTimer tmr s).sp.toNat
    · exact .inr ⟨i, hroom, Except.ok.inj ((h.symm.trans e).trans (interruptEntry_of_room i _ hroom))⟩
    · have herr := e.trans (interruptEntry_of_no_room i _ (Nat.lt_of_not_le hroom))
      rw [h] at herr; cases herr

theorem zext9_toNat (v : Byte) : (zext9 v).toNat = v.toNat :=
  BitVec.toNat_setWidth_of_le (by decide)

theorem zext9_le (v : Byte) : (zext9 v).toNat ≤ 0xFF := by
  have := v.isLt
  rw [zext9_toNat]
  omega

/-- Settles O50: the timer sample writes IS, an entry IS, SP, memory and `pc`. -/
theorem pollFrame : Obligations.PollFrame := by
  intro tmr s t h
  have hsp : (sampleTimer tmr s).sp = s.sp := sampleTimer_reg_of_ne tmr s (by decide)
  rcases interruptPoll_ok h with rfl | ⟨i, hroom, rfl⟩
  · exact ⟨fun r hr _ => sampleTimer_reg_of_ne tmr s hr, rfl, rfl, rfl, rfl, rfl, rfl, .inl ⟨rfl, rfl, hsp⟩⟩
  · refine ⟨fun r h6 h7 => ?_, rfl, rfl, rfl, rfl, rfl, rfl, .inr ⟨zext9_le _, ?_, ?_, hsp ▸ hroom⟩⟩
    · rw [entered_reg, if_neg h7.symm, if_neg h6.symm, sampleTimer_reg_of_ne tmr s h6]
    · rw [State.is_eq, entered_reg]; rfl
    · rw [State.sp_eq (entered ..), entered_reg, if_pos rfl, hsp]

/-- Settles O51: the timer sample makes line 0 pending, and no line is lower. -/
theorem enabledTimerEntersEveryIteration : Obligations.EnabledTimerEntersEveryIteration := by
  intro s hs htmr him hroom
  have hsp : (sampled s).sp = s.sp := sampleTimer_reg_of_ne _ s.consume (by decide)
  have himr : (sampled s).im = s.im := sampleTimer_reg_of_ne _ s.consume (by decide)
  have his : (sampled s).is.getLsbD 0 = true := by
    rw [State.is_eq, sampled, htmr, sampleTimer, State.setReg_reg, if_pos rfl, if_pos rfl, BitVec.getLsbD_or]
    simp
  have hsel : selectLine (sampled s).im (sampled s).is = some 0 := by
    refine selectLine_eq_some.2 ⟨?_, fun j hj => absurd hj (Fin.not_lt_zero j)⟩
    rw [BitVec.getLsbD_and, himr]
    exact Bool.and_eq_true_iff.2 ⟨him, his⟩
  have hentry := interruptEntry_of_room 0 (sampled s) (hsp ▸ hroom)
  refine ⟨entered 0 (sampled s), interruptEntryPushesFrame.2 0 s _ hs hsel hentry, ?_, ?_, ?_, rfl⟩
  · rw [State.is_eq, entered_reg]; rfl
  · rw [State.im_eq, entered_reg]; exact himr
  · rw [State.sp_eq (entered ..), entered_reg, if_pos rfl, hsp]

/-- Settles O20: with no line selected the poll leaves the sampled state, whose fetch sees the same bytes. -/
theorem stepRunsDecodedInstruction : Obligations.StepRunsDecodedInstruction := by
  intro s i hs ho hnone hcode
  have hlen : (encodeWith s.hltEnc i).length ≤ 3 := by
    have := operandBytes_le i
    rw [encodeWith_length ho]
    omega
  obtain ⟨rest, hf⟩ := fetchBytes_of_codeAt hcode hlen
  have hdec : decodeWith s.hltEnc (fetchBytes s) = .ok (i, rest) := by
    rw [hf]; exact decodeOfEncode s.hltEnc i rest ho
  have hpoll : interruptPoll s.pins.tmr s.consume = .ok (sampled s) := by
    rcases interruptPoll_cases s.pins.tmr s.consume with ⟨-, e⟩ | ⟨j, hj, -⟩
    · exact e
    · cases hnone.symm.trans hj
  constructor
  · rw [hdec, hf, List.drop_left]
  · rw [(step_of_iterates hs).1 _ hpoll]
    exact fetchExecute_of_decode (s := sampled s) hdec

end Sys2Proof.Machine
end

section
/-! What every step does to the parameter, the output stream and its pins, the flags and the run state. Each
is read off `step_cases`, with the RUNNING step taken apart into the poll and one instruction or fault. -/

namespace Sys2Proof.Machine

/-! ## Every step answers a next state -/

theorem exec_total (i : Instr) (s : State) : ∃ t, exec i s = .next t := by
  rw [exec_eq_settle]
  cases effectOf i s with
  | ok t => exact ⟨t, rfl⟩
  | error c => exact ⟨_, rfl⟩

theorem fetchExecute_total (s : State) : ∃ t, fetchExecute s = .next t := by
  unfold fetchExecute
  split
  · exact exec_total _ s
  · exact ⟨_, rfl⟩

theorem iteration_total (tmr : Bool) (s : State) : ∃ t, iteration tmr s = .next t := by
  unfold iteration
  split_ifs
  · exact ⟨_, rfl⟩
  · split
    · exact fetchExecute_total _
    · exact ⟨_, rfl⟩

/-- Settles O4: every branch of the step ends in `.next`. -/
theorem everyStepAnswersNext : Obligations.EveryStepAnswersNext := by
  refine ⟨fun s => ?_, exec_total⟩
  simp only [step, stepOnce]
  split_ifs
  · exact ⟨_, rfl⟩
  · cases s.run with
    | running => exact iteration_total _ _
    | loading | halted | pcPastEnd | fault => exact ⟨_, rfl⟩

/-! ## The end of a RUNNING step -/

/-- All fetch and execute can end in: what the decoded instruction does, or a fault with one of the codes
that are raised. -/
theorem fetchExecute_ends {s t : State} (h : fetchExecute s = .next t) :
    (∃ i rest, decodeWith s.hltEnc (fetchBytes s) = .ok (i, rest) ∧ Ran s i t) ∨
    ∃ c, c ≠ .none ∧ c ≠ .aluUnsupported ∧ t = s.raiseFault c := by
  rcases fetchExecute_cases h with ⟨i, rest, hd, hexec⟩ | ⟨r, -, rfl⟩
  · rcases exec_eq_next.1 hexec with hok | ⟨c, herr, rfl⟩
    · exact .inl ⟨i, rest, hd, ran_of_effect hok⟩
    · rcases effectOf_error_code herr with rfl | rfl | rfl | rfl <;>
        exact .inr ⟨_, by decide, by decide, rfl⟩
  · cases r <;> exact .inr ⟨_, by decide, by decide, rfl⟩

/-! ## The parameter HLT_ENC -/

theorem fetchExecute_hltEnc {s t : State} (h : fetchExecute s = .next t) : t.hltEnc = s.hltEnc := by
  rcases fetchExecute_ends h with ⟨i, rest, -, hran⟩ | ⟨c, -, -, rfl⟩
  · obtain ⟨-, -, -, -, hhlt⟩ := hran.frame
    exact hhlt
  · rfl

/-- Settles O11: no case of `step_cases` writes the field. -/
theorem stepKeepsHltParameter : Obligations.StepKeepsHltParameter := by
  intro s t h
  rcases step_cases h with ⟨-, rfl⟩ | ⟨-, -, rfl⟩ | ⟨-, -, -, rfl⟩ | ⟨-, rfl⟩ | ⟨-, u, hpoll, hfe⟩ | ⟨-, -, rfl⟩
  · rfl
  · rw [loadPhase_eq]; rfl
  · rfl
  · rfl
  · obtain ⟨-, -, -, -, -, -, hhlt, -⟩ := pollFrame _ _ _ hpoll
    exact (fetchExecute_hltEnc hfe).trans hhlt
  · rfl

/-! ## The output stream -/

theorem fetchExecute_output_cases {s t : State} (h : fetchExecute s = .next t) :
    t.output = s.output ∨ ∃ e, t.output = s.output ++ [e] := by
  rcases fetchExecute_cases h with ⟨i, rest, -, hexec⟩ | ⟨r, -, rfl⟩
  · rcases exec_output_cases hexec with ⟨r, -, ho⟩ | ⟨r, -, ho⟩ | ⟨-, ho⟩
    · exact .inr ⟨_, ho⟩
    · exact .inr ⟨_, ho⟩
    · exact .inl ho
  · exact .inl rfl

/-- All a step without `rst` can do to the output stream. -/
theorem step_output_cases {s t : State} (h : step s = .next t) (hr : s.pins.rst = false) :
    t.output = s.output ∨ ∃ e, t.output = s.output ++ [e] := by
  rcases step_cases h with ⟨hr', -⟩ | ⟨-, -, rfl⟩ | ⟨-, -, -, rfl⟩ | ⟨-, rfl⟩ | ⟨-, u, hpoll, hfe⟩ | ⟨-, -, rfl⟩
  · rw [hr] at hr'; cases hr'
  · exact .inl (by rw [loadPhase_eq]; rfl)
  · exact .inl rfl
  · exact .inl rfl
  · obtain ⟨-, -, -, -, -, hout, -⟩ := pollFrame _ _ _ hpoll
    have hout' : u.output = s.output := hout
    rw [← hout']
    exact fetchExecute_output_cases hfe
  · exact .inl rfl

/-- Settles O42, by the two cases of `step_output_cases`. -/
theorem outputOnlyGrows : Obligations.OutputOnlyGrows := by
  intro s t h hr
  rcases step_output_cases h hr with ho | ⟨e, ho⟩
  · exact ⟨[], by rw [ho, List.append_nil], Nat.zero_le 1⟩
  · exact ⟨[e], ho, Nat.le_refl 1⟩

/-! ## The output pins -/

/-- The pins of a step that appends one event. -/
theorem outPins_of_output_append {s t : State} {k : OutKind} {v : Byte} (h : t.output = s.output ++ [⟨k, v⟩]) :
    (outPins s t).outValid = true ∧ (outPins s t).outKind = k.bit ∧ (outPins s t).outData = v := by
  have he := emitted_of_output_append h
  exact ⟨by rw [outPins_outValid, he]; rfl, outPins_outKind he, outPins_outData he⟩

theorem outValid_of_output_eq {s t : State} (h : t.output = s.output) : (outPins s t).outValid = false := by
  rw [outPins_outValid, emitted_of_output_eq h]; rfl

theorem outValid_exec_iff {i : Instr} {s t : State} (h : exec i s = .next t) :
    (outPins s t).outValid = true ↔ ∃ r, i = .prn (regByte r) ∨ i = .pra (regByte r) := by
  constructor
  · intro hv
    rcases exec_output_cases h with ⟨r, hi, -⟩ | ⟨r, hi, -⟩ | ⟨-, ho⟩
    · exact ⟨r, .inl hi⟩
    · exact ⟨r, .inr hi⟩
    · rw [outValid_of_output_eq ho] at hv; cases hv
  · rintro ⟨r, rfl | rfl⟩
    · cases (exec_prn_regByte s r).symm.trans h
      exact (outPins_of_output_append rfl).1
    · cases (exec_pra_regByte s r).symm.trans h
      exact (outPins_of_output_append rfl).1

/-- Settles O52: the two instructions with an event, the others, the step without and with `rst`. -/
theorem outputPinsShowEachEvent : Obligations.OutputPinsShowEachEvent := by
  refine ⟨fun s r => ⟨⟨_, exec_prn_regByte s r, outPins_of_output_append (k := .prn) rfl⟩,
    ⟨_, exec_pra_regByte s r, outPins_of_output_append (k := .pra) rfl⟩⟩, fun i s t h => outValid_exec_iff h,
    fun s t h hr => ?_, fun s t h hr => ?_, fun s t => ⟨rfl, rfl, rfl⟩⟩
  · rcases step_output_cases h hr with ho | ⟨⟨k, v⟩, ho⟩
    · exact ⟨fun hv => (by rw [outValid_of_output_eq ho] at hv; cases hv), fun _ => ho⟩
    · obtain ⟨hv, hk, hd⟩ := outPins_of_output_append ho
      exact ⟨fun _ => ⟨k, hk, hd.symm ▸ ho⟩, fun hv' => (by rw [hv] at hv'; cases hv')⟩
  · rw [rstResetsEveryRunState s hr] at h
    cases h
    rw [outPins_outValid, emitted_of_output_nil rfl]; rfl

/-! ## The flags -/

theorem and_compareFlags (fl v w : Byte) : fl &&& compareFlags fl v w = fl := by
  ext k hk
  rw [compareFlags, BitVec.getElem_and, BitVec.getElem_or]
  cases fl[k] <;> rfl

theorem Ran.and_fl {i : Instr} {s t : State} (h : Ran s i t) : s.fl &&& t.fl = s.fl := by
  rcases h.fl_cases with ⟨a, b, v, w, -, hfl⟩ | hfl
  · rw [hfl, and_compareFlags]
  · rw [hfl, BitVec.and_self]

/-- No flag is cleared by a step without `rst` that ends outside FAULT. -/
theorem step_and_fl {s t : State} (h : step s = .next t) (hr : s.pins.rst = false) (ht : t.run ≠ .fault) :
    s.fl &&& t.fl = s.fl := by
  rcases step_cases h with ⟨hr', -⟩ | ⟨-, -, rfl⟩ | ⟨-, -, -, rfl⟩ | ⟨-, rfl⟩ | ⟨-, u, hpoll, hfe⟩ | ⟨-, -, rfl⟩
  · rw [hr] at hr'; cases hr'
  · rw [loadPhase_eq]; exact BitVec.and_self
  · exact BitVec.and_self
  · exact absurd rfl ht
  · obtain ⟨-, hfl, -⟩ := pollFrame _ _ _ hpoll
    have hfl' : u.fl = s.fl := hfl
    rcases fetchExecute_ends hfe with ⟨i, rest, -, hran⟩ | ⟨c, -, -, rfl⟩
    · rw [← hfl']; exact hran.and_fl
    · exact absurd rfl ht
  · exact BitVec.and_self

theorem equalSet_of_and_eq {fl fl' : Byte} (h : fl &&& fl' = fl) (he : equalSet fl = true) :
    equalSet fl' = true := by
  rw [← h, equalSet, BitVec.getLsbD_and] at he
  exact (Bool.and_eq_true_iff.1 he).2

/-- Settles O41: the instructions by `Ran.fl_cases`, the poll by its frame, the step by `step_and_fl`. -/
theorem flagsNeverCleared : Obligations.FlagsNeverCleared := by
  refine ⟨fun i s t _ hexec ht hi => ?_, fun tmr s t h => ?_, fun s t h hr _ ht => ?_⟩
  · rcases (ran_of_exec hexec ht).fl_cases with ⟨a, b, v, w, rfl, -⟩ | hfl
    · exact absurd rfl (hi a b)
    · exact hfl
  · obtain ⟨-, hfl, -⟩ := pollFrame tmr s t h
    exact hfl
  · exact ⟨step_and_fl h hr ht, equalSet_of_and_eq (step_and_fl h hr ht)⟩

/-! ## The run state (R27) -/

/-- A poll that does not fault leaves the machine RUNNING with `pc` inside memory. -/
theorem poll_running_inside {s u : State} (hs : Iterates s) (h : interruptPoll s.pins.tmr s.consume = .ok u) :
    u.run = .running ∧ u.pc.toNat ≤ 0xFF := by
  obtain ⟨-, -, hrun, -, -, -, -, hpc⟩ := pollFrame _ _ _ h
  refine ⟨hrun.trans hs.1, ?_⟩
  rcases hpc with ⟨hpc, -, -⟩ | ⟨hpc, -⟩
  · rw [hpc]; exact hs.2.2
  · exact hpc

/-- The byte at `pc` from which HLT is decoded is HLT_ENC. -/
theorem byteAt_of_decode_hlt {s : State} {rest : List Byte} (ho : HltEncOk s.hltEnc) (hpc : s.pc.toNat ≤ 0xFF)
    (h : decodeWith s.hltEnc (fetchBytes s) = .ok (.hlt, rest)) : byteAt s s.pc = s.hltEnc := by
  obtain ⟨tail, hf⟩ := fetchBytes_eq_cons hpc
  have he := hf.symm.trans (encodeOfDecode _ _ _ _ ho h)
  exact (List.cons.inj he).1

/-- What fetch and execute do to a RUNNING machine's run state. -/
theorem fetchExecute_run_cases {s t : State} (ho : HltEncOk s.hltEnc) (hpc : s.pc.toNat ≤ 0xFF)
    (hrun : s.run = .running) (h : fetchExecute s = .next t) :
    t.run = .running ∨ t.run = .fault ∨ (t = s.setRun .halted ∧ byteAt s s.pc = s.hltEnc) := by
  rcases fetchExecute_ends h with ⟨i, rest, hd, hran⟩ | ⟨c, -, -, rfl⟩
  · rcases hran.run_cases with ⟨rfl, ht⟩ | ht
    · exact .inr (.inr ⟨ht, byteAt_of_decode_hlt ho hpc hd⟩)
    · exact .inl (ht.trans hrun)
  · exact .inr (.inl rfl)

/-- What a RUNNING step does to the run state. -/
theorem running_step_cases {s t : State} (ho : HltEncOk s.hltEnc) (h : step s = .next t)
    (hr : s.pins.rst = false) (hrun : s.run = .running) :
    (0xFF < s.pc.toNat ∧ t.run = .pcPastEnd) ∨
    (s.pc.toNat ≤ 0xFF ∧ (t.run = .running ∨ t.run = .fault ∨
      (t.run = .halted ∧ t.pc.toNat ≤ 0xFF ∧ byteAt t t.pc = t.hltEnc))) := by
  by_cases hpc : 0xFF < s.pc.toNat
  · rw [runOffEndsTheRun s hrun hr hpc] at h
    cases h
    exact .inl ⟨hpc, rfl⟩
  · have hs : Iterates s := ⟨hrun, hr, Nat.le_of_not_lt hpc⟩
    refine .inr ⟨hs.2.2, ?_⟩
    cases hpoll : interruptPoll s.pins.tmr s.consume with
    | error c =>
      rw [(step_of_iterates hs).2 c hpoll] at h
      cases h
      exact .inr (.inl rfl)
    | ok u =>
      rw [(step_of_iterates hs).1 u hpoll] at h
      obtain ⟨hurun, hupc⟩ := poll_running_inside hs hpoll
      obtain ⟨-, -, -, -, -, -, hhlt, -⟩ := pollFrame _ _ _ hpoll
      have huo : HltEncOk u.hltEnc := by rw [hhlt]; exact ho
      rcases fetchExecute_run_cases huo hupc hurun h with ht | ht | ⟨rfl, hbyte⟩
      · exact .inl ht
      · exact .inr (.inl ht)
      · exact .inr (.inr ⟨rfl, hupc, hbyte⟩)

/-- Settles O10: LOADING and the terminal states by their own steps, RUNNING by `running_step_cases`. -/
theorem runStateTransitions : Obligations.RunStateTransitions := by
  intro s t ho h hr
  refine ⟨fun hrun => ?_, fun hrun => ?_, fun hterm => ?_⟩
  · rw [loadingStepWritesMemoryOnly s hrun hr] at h
    cases h
    rfl
  · rcases running_step_cases ho h hr hrun with ⟨hpc, ht⟩ | ⟨hpc, ht | ht | ⟨ht, hhalt⟩⟩
    · simp [ht, hpc]
    · simp [ht, hpc]
    · simp [ht, hpc]
    · simp [ht, hpc, hhalt]
  · rw [terminalStatesStay s hterm hr] at h
    cases h
    rfl

end Sys2Proof.Machine
end

section
/-! The invariant of the machine holds at reset (`10_state.md` R30), and every step keeps it: one lemma for
each shared operation a step is made of. -/

namespace Sys2Proof.Machine

/-! ## Reset, sampling, faults -/

/-- Settles O1: each field of the reset state is evaluated. -/
theorem resetValues : Obligations.ResetValues :=
  ⟨fun _ => rfl, rfl, rfl, by decide, rfl, rfl, rfl, rfl, rfl, rfl⟩

/-- Settles O2: each clause of the invariant is evaluated. -/
theorem resetMeetsInvariant : Obligations.ResetMeetsInvariant where
  memWf := Memory.wf_nil
  pcRange := by decide
  flReserved _ := rfl
  recordClear := by decide
  recordCode := by decide
  recordPc := by decide
  loadingClean _ := ⟨rfl, rfl, rfl, rfl, rfl⟩
  hltOk := by decide

/-- The parameter is the one field of the invariant that `rst` does not set. -/
theorem inv_afterRst {s : State} (ho : HltEncOk s.hltEnc) : s.afterRst.Inv :=
  { resetMeetsInvariant with hltOk := ho }

theorem inv_consume {s : State} (h : s.Inv) : s.consume.Inv where
  memWf := h.memWf
  pcRange := h.pcRange
  flReserved := h.flReserved
  recordClear := h.recordClear
  recordCode := h.recordCode
  recordPc := h.recordPc
  loadingClean := h.loadingClean
  hltOk := h.hltOk

theorem inv_raiseFault {s : State} {c : FaultCode} (hc : c ≠ .none) (hc' : c ≠ .aluUnsupported)
    (hpc : s.pc.toNat ≤ 0xFF) (ho : HltEncOk s.hltEnc) : (s.raiseFault c).Inv where
  memWf := Memory.wf_ofFn _
  pcRange := Nat.le_of_lt_succ (Config.pcAfterFault s.draws).isLt
  flReserved hrun := absurd rfl hrun
  recordClear := iff_of_false hc fun hrun => hrun rfl
  recordCode := hc'
  recordPc := hpc
  loadingClean hrun := by cases hrun
  hltOk := ho

/-! ## Loading and the poll -/

/-- A state that left LOADING and has the record of a state with the invariant outside FAULT has the
invariant when its memory, `pc` and flags do. -/
theorem inv_of_record {s t : State} (h : s.Inv) (hs : s.run ≠ .fault) (ht : t.run ≠ .fault)
    (hload : t.run ≠ .loading) (hmem : t.mem.wf) (hpc : t.pc.toNat ≤ 0x100) (hfl : t.fl &&& 0x1F = 0)
    (hcode : t.faultCode = s.faultCode) (hfpc : t.faultPc = s.faultPc) (hhlt : t.hltEnc = s.hltEnc) :
    t.Inv where
  memWf := hmem
  pcRange := hpc
  flReserved _ := hfl
  recordClear := by rw [hcode]; exact iff_of_true (h.recordClear.2 hs) ht
  recordCode := by rw [hcode]; exact h.recordCode
  recordPc := by rw [hfpc]; exact h.recordPc
  loadingClean hrun := absurd hrun hload
  hltOk := by rw [hhlt]; exact h.hltOk

theorem inv_loadPhase {s : State} (h : s.Inv) (hrun : s.run = .loading) (p : Pins) : (loadPhase p s).Inv := by
  have hne : s.run ≠ .fault := by rw [hrun]; decide
  have hmem : (if p.loadWe then s.mem.write p.loadAddr p.loadData else s.mem).wf := by
    split
    · exact Memory.wf_write h.memWf _ _
    · exact h.memWf
  rw [loadPhase_eq]
  cases p.start with
  | false => exact { h with memWf := hmem }
  | true => exact inv_of_record h hne (by simp) (by simp) hmem h.pcRange (h.flReserved hne) rfl rfl rfl

/-- The poll keeps the invariant. -/
theorem inv_poll {s u : State} {tmr : Bool} (h : s.Inv) (hrun : s.run = .running)
    (hpoll : interruptPoll tmr s = .ok u) : u.Inv := by
  have hne : s.run ≠ .fault := by rw [hrun]; decide
  obtain ⟨-, hfl, hurun, hcode, hfpc, -, hhlt, -⟩ := pollFrame tmr s u hpoll
  have hmem : u.mem.wf ∧ u.pc.toNat ≤ 0x100 := by
    rcases interruptPoll_ok hpoll with rfl | ⟨i, -, rfl⟩
    · exact ⟨h.memWf, h.pcRange⟩
    · exact ⟨wf_pushedMem h.memWf _ _, (zext9_le _).trans (by decide)⟩
  refine inv_of_record h hne ?_ ?_ hmem.1 hmem.2 (hfl ▸ h.flReserved hne) hcode hfpc hhlt
  · rw [hurun]; exact hne
  · rw [hurun, hrun]; decide

/-! ## Instructions -/

/-- An instruction that is decoded lies inside memory with all its operand bytes. -/
theorem pc_add_operandBytes_lt {s : State} {i : Instr} {rest : List Byte} (ho : HltEncOk s.hltEnc)
    (hpc : s.pc.toNat ≤ 0xFF) (h : decodeWith s.hltEnc (fetchBytes s) = .ok (i, rest)) :
    s.pc.toNat + operandBytes i < 256 := by
  have hlen := congrArg List.length (encodeOfDecode _ _ _ _ ho h)
  rw [fetchBytes_length hpc, List.length_append, encodeWith_length ho] at hlen
  omega

/-- What an instruction that writes `pc` itself writes: an address or `pc + 2`. -/
theorem WritesPc.pc_cases {i : Instr} {s t : State} (h : WritesPc i s t) :
    (∃ v, t.pc = zext9 v) ∨ (operandBytes i = 1 ∧ t.pc = s.pc + 2) := by
  rcases h with ⟨r, rfl, hpc⟩ | ⟨r, rfl, hpc⟩ | ⟨r, rfl, hpc⟩ | ⟨r, rfl, hpc⟩ | ⟨rfl, hpc⟩
  · exact .inl ⟨_, hpc⟩
  · split at hpc
    · exact .inl ⟨_, hpc⟩
    · exact .inr ⟨rfl, hpc⟩
  · split at hpc
    · exact .inr ⟨rfl, hpc⟩
    · exact .inl ⟨_, hpc⟩
  · exact .inl ⟨_, hpc⟩
  · exact .inl ⟨_, hpc⟩

/-- An instruction whose bytes lie inside memory leaves `pc` at most one past its end. -/
theorem Ran.pc_le {i : Instr} {s t : State} (h : Ran s i t) (hfit : s.pc.toNat + operandBytes i < 256) :
    t.pc.toNat ≤ 0x100 := by
  have hn := operandBytes_le i
  rcases h.pc_cases with ⟨-, hpc⟩ | ⟨-, hpc⟩ | ⟨-, hw⟩
  · rw [hpc]; omega
  · rw [hpc]; bv_omega
  · rcases hw.pc_cases with ⟨v, hpc⟩ | ⟨h1, hpc⟩
    · rw [hpc]; exact (zext9_le v).trans (by decide)
    · rw [hpc]; bv_omega

theorem Ran.mem_wf {i : Instr} {s t : State} (h : Ran s i t) (hs : s.mem.wf) : t.mem.wf := by
  rcases h.mem_cases with hmem | ⟨a, v, -, hmem⟩ <;> rw [hmem]
  · exact hs
  · exact Memory.wf_write hs a v

/-- CMP sets none of the reserved bits. -/
theorem compareFlags_reserved {fl : Byte} (h : fl &&& 0x1F = 0) (v w : Byte) :
    compareFlags fl v w &&& 0x1F = 0 := by
  have hflag : compareFlag v w &&& 0x1F = 0 := by
    unfold compareFlag
    split_ifs <;> rfl
  rw [compareFlags, BitVec.and_comm, BitVec.and_or_distrib_left, BitVec.and_comm, h, BitVec.and_comm, hflag]
  rfl

theorem Ran.fl_reserved {i : Instr} {s t : State} (h : Ran s i t) (hs : s.fl &&& 0x1F = 0) :
    t.fl &&& 0x1F = 0 := by
  rcases h.fl_cases with ⟨a, b, v, w, -, hfl⟩ | hfl <;> rw [hfl]
  · exact compareFlags_reserved hs v w
  · exact hs

theorem Ran.inv {i : Instr} {s t : State} (h : Ran s i t) (hs : s.Inv) (hrun : s.run = .running)
    (hfit : s.pc.toNat + operandBytes i < 256) : t.Inv := by
  have hne : s.run ≠ .fault := by rw [hrun]; decide
  obtain ⟨hcode, hfpc, -, -, hhlt⟩ := h.frame
  have ht : t.run = .halted ∨ t.run = .running := by
    rcases h.run_cases with ⟨-, rfl⟩ | ht
    · exact .inl rfl
    · exact .inr (ht.trans hrun)
  refine inv_of_record hs hne ?_ ?_ (h.mem_wf hs.memWf) (h.pc_le hfit) (h.fl_reserved (hs.flReserved hne))
    hcode hfpc hhlt
  · rcases ht with ht | ht <;> rw [ht] <;> decide
  · rcases ht with ht | ht <;> rw [ht] <;> decide

/-! ## The step -/

/-- Fetch and execute keep the invariant. -/
theorem inv_fetchExecute {s t : State} (hs : s.Inv) (hrun : s.run = .running) (hpc : s.pc.toNat ≤ 0xFF)
    (h : fetchExecute s = .next t) : t.Inv := by
  rcases fetchExecute_ends h with ⟨i, rest, hd, hran⟩ | ⟨c, hc, hc', rfl⟩
  · exact hran.inv hs hrun (pc_add_operandBytes_lt hs.hltOk hpc hd)
  · exact inv_raiseFault hc hc' hpc hs.hltOk

/-- Settles O3: each case of `step_cases` keeps the invariant. -/
theorem stepKeepsInvariant : Obligations.StepKeepsInvariant := by
  intro s t hs h
  have hc : s.consume.Inv := inv_consume hs
  rcases step_cases h with ⟨-, rfl⟩ | ⟨-, hrun, rfl⟩ | ⟨-, hrun, -, rfl⟩ | ⟨hit, rfl⟩ | ⟨hit, u, hpoll, hfe⟩ |
    ⟨-, -, rfl⟩
  · exact inv_afterRst hs.hltOk
  · exact inv_loadPhase hc hrun _
  · have hne : s.run ≠ .fault := by rw [hrun]; decide
    exact inv_of_record hc hne (by simp) (by simp) hs.memWf hs.pcRange (hs.flReserved hne) rfl rfl rfl
  · exact inv_raiseFault (by decide) (by decide) hit.2.2 hs.hltOk
  · obtain ⟨hurun, hupc⟩ := poll_running_inside hit hpoll
    exact inv_fetchExecute (inv_poll hc hit.1 hpoll) hurun hupc hfe
  · exact hc

end Sys2Proof.Machine
end
